-- ==== Sys2Proof/Word.lean ====
section
/-! DEFINITION. The two word types of the machine (00_scope.md R8, R12). -/

namespace Sys2Proof

/-- `u8`: a register or a memory location holds 8 bits (R8, R12). -/
abbrev Byte := BitVec 8

/-- `u16`: an address or the program counter has 16 bits (R8, R12). -/
abbrev Addr := BitVec 16

end Sys2Proof
end

