-- ==== Sys2Proof/Syntax.lean ====
section
/-! DEFINITION. The syntax of the 6502 instructions of 30_encoding.md: the 56 mnemonics and the
ILLEGAL marker (R62, R66), the 13 addressing modes (R70), an operand form with its bytes, and the
instruction itself. `Instr` has one constructor per mnemonic, as R62 asks: "one variant per 6502
mnemonic plus an explicit 'illegal' variant"; the rows of the opcode table that share a mnemonic
differ in their operand form, which the constructor carries (assumption log 1). -/

namespace Sys2Proof

/-- The operation tag of the opcode table: the 56 mnemonics and ILLEGAL (R62, R66). -/
inductive Op where
  | lda | ldx | ldy | sta | stx | sty
  | adc | sbc
  | and | ora | eor | bit
  | asl | lsr | rol | ror
  | inc | dec | inx | iny | dex | dey
  | cmp | cpx | cpy
  | bcc | bcs | beq | bne | bmi | bpl | bvc | bvs
  | jmp | jsr | rts | rti
  | pha | php | pla | plp
  | clc | sec | cld | sed | cli | sei | clv
  | tax | txa | tay | tya | tsx | txs
  | nop | brk
  | illegal
  deriving DecidableEq, Repr

/-- The addressing-mode tag of the opcode table (R70). -/
inductive Mode where
  | implied | accumulator | immediate | zeroPage | zeroPageX | zeroPageY | absolute
  | absoluteX | absoluteY | indirect | indirectX | indirectY | relative
  deriving DecidableEq, Repr

/-- An operand form: the addressing mode with the operand bytes it uses (R60, R63). -/
inductive Operand where
  /-- No operand byte. -/
  | implied
  /-- The accumulator itself, no operand byte. -/
  | accumulator
  /-- `#$nn`: the literal byte b1. -/
  | immediate (value : Byte)
  /-- `$nn`. -/
  | zeroPage (zp : Byte)
  /-- `$nn,X`. -/
  | zeroPageX (zp : Byte)
  /-- `$nn,Y`. -/
  | zeroPageY (zp : Byte)
  /-- `$nnnn`, the 16-bit operand b2:b1. -/
  | absolute (addr : Addr)
  /-- `$nnnn,X`. -/
  | absoluteX (addr : Addr)
  /-- `$nnnn,Y`. -/
  | absoluteY (addr : Addr)
  /-- `($nnnn)`, JMP only. -/
  | indirect (ptr : Addr)
  /-- `($nn,X)`. -/
  | indirectX (zp : Byte)
  /-- `($nn),Y`. -/
  | indirectY (zp : Byte)
  /-- A signed displacement from the next instruction, branches only. -/
  | relative (disp : Byte)
  deriving DecidableEq, Repr

def Operand.mode : Operand → Mode
  | .implied => .implied
  | .accumulator => .accumulator
  | .immediate _ => .immediate
  | .zeroPage _ => .zeroPage
  | .zeroPageX _ => .zeroPageX
  | .zeroPageY _ => .zeroPageY
  | .absolute _ => .absolute
  | .absoluteX _ => .absoluteX
  | .absoluteY _ => .absoluteY
  | .indirect _ => .indirect
  | .indirectX _ => .indirectX
  | .indirectY _ => .indirectY
  | .relative _ => .relative

/-- An instruction: a mnemonic with its operand form. -/
inductive Instr where
  /-- LDA: load accumulator (R111). -/
  | lda (o : Operand)
  /-- LDX: load index X (R112). -/
  | ldx (o : Operand)
  /-- LDY: load index Y (R113). -/
  | ldy (o : Operand)
  /-- STA: store accumulator (R114). -/
  | sta (o : Operand)
  /-- STX: store index X (R115). -/
  | stx (o : Operand)
  /-- STY: store index Y (R116). -/
  | sty (o : Operand)
  /-- ADC: add with carry (R124). -/
  | adc (o : Operand)
  /-- SBC: subtract with borrow (R125). -/
  | sbc (o : Operand)
  /-- AND: bitwise AND with A (R130). -/
  | and (o : Operand)
  /-- ORA: bitwise OR with A (R131). -/
  | ora (o : Operand)
  /-- EOR: bitwise exclusive OR with A (R132). -/
  | eor (o : Operand)
  /-- BIT: test bits (R133). -/
  | bit (o : Operand)
  /-- ASL: arithmetic shift left (R141). -/
  | asl (o : Operand)
  /-- LSR: logical shift right (R142). -/
  | lsr (o : Operand)
  /-- ROL: rotate left through carry (R143). -/
  | rol (o : Operand)
  /-- ROR: rotate right through carry (R144). -/
  | ror (o : Operand)
  /-- INC: increment memory (R150). -/
  | inc (o : Operand)
  /-- DEC: decrement memory (R151). -/
  | dec (o : Operand)
  /-- INX: increment X (R152). -/
  | inx
  /-- INY: increment Y (R153). -/
  | iny
  /-- DEX: decrement X (R154). -/
  | dex
  /-- DEY: decrement Y (R155). -/
  | dey
  /-- CMP: compare with A (R161). -/
  | cmp (o : Operand)
  /-- CPX: compare with X (R162). -/
  | cpx (o : Operand)
  /-- CPY: compare with Y (R163). -/
  | cpy (o : Operand)
  /-- BCC: branch if carry clear (R171). -/
  | bcc (disp : Byte)
  /-- BCS: branch if carry set (R172). -/
  | bcs (disp : Byte)
  /-- BEQ: branch if equal (R173). -/
  | beq (disp : Byte)
  /-- BNE: branch if not equal (R174). -/
  | bne (disp : Byte)
  /-- BMI: branch if minus (R175). -/
  | bmi (disp : Byte)
  /-- BPL: branch if plus (R176). -/
  | bpl (disp : Byte)
  /-- BVC: branch if overflow clear (R177). -/
  | bvc (disp : Byte)
  /-- BVS: branch if overflow set (R178). -/
  | bvs (disp : Byte)
  /-- JMP: jump (R180). -/
  | jmp (o : Operand)
  /-- JSR: jump to subroutine (R181). -/
  | jsr (target : Addr)
  /-- RTS: return from subroutine (R182). -/
  | rts
  /-- RTI: return from interrupt (R183). -/
  | rti
  /-- PHA: push accumulator (R184). -/
  | pha
  /-- PHP: push processor status (R185). -/
  | php
  /-- PLA: pull accumulator (R186). -/
  | pla
  /-- PLP: pull processor status (R187). -/
  | plp
  /-- CLC: clear carry (R200). -/
  | clc
  /-- SEC: set carry (R201). -/
  | sec
  /-- CLD: clear decimal (R202). -/
  | cld
  /-- SED: set decimal (R203). -/
  | sed
  /-- CLI: clear interrupt-disable (R204). -/
  | cli
  /-- SEI: set interrupt-disable (R205). -/
  | sei
  /-- CLV: clear overflow (R206). -/
  | clv
  /-- TAX: transfer A to X (R207). -/
  | tax
  /-- TXA: transfer X to A (R208). -/
  | txa
  /-- TAY: transfer A to Y (R209). -/
  | tay
  /-- TYA: transfer Y to A (R210). -/
  | tya
  /-- TSX: transfer SP to X (R211). -/
  | tsx
  /-- TXS: transfer X to SP (R212). -/
  | txs
  /-- NOP: no operation (R213). -/
  | nop
  /-- BRK: break (R214). -/
  | brk
  /-- ILLEGAL: one of the 105 slots of R67, with its opcode byte. -/
  | illegal (raw : Byte)
  deriving DecidableEq, Repr

/-- The operation tag of an instruction. -/
def Instr.op : Instr → Op
  | .lda _ => .lda
  | .ldx _ => .ldx
  | .ldy _ => .ldy
  | .sta _ => .sta
  | .stx _ => .stx
  | .sty _ => .sty
  | .adc _ => .adc
  | .sbc _ => .sbc
  | .and _ => .and
  | .ora _ => .ora
  | .eor _ => .eor
  | .bit _ => .bit
  | .asl _ => .asl
  | .lsr _ => .lsr
  | .rol _ => .rol
  | .ror _ => .ror
  | .inc _ => .inc
  | .dec _ => .dec
  | .inx => .inx
  | .iny => .iny
  | .dex => .dex
  | .dey => .dey
  | .cmp _ => .cmp
  | .cpx _ => .cpx
  | .cpy _ => .cpy
  | .bcc _ => .bcc
  | .bcs _ => .bcs
  | .beq _ => .beq
  | .bne _ => .bne
  | .bmi _ => .bmi
  | .bpl _ => .bpl
  | .bvc _ => .bvc
  | .bvs _ => .bvs
  | .jmp _ => .jmp
  | .jsr _ => .jsr
  | .rts => .rts
  | .rti => .rti
  | .pha => .pha
  | .php => .php
  | .pla => .pla
  | .plp => .plp
  | .clc => .clc
  | .sec => .sec
  | .cld => .cld
  | .sed => .sed
  | .cli => .cli
  | .sei => .sei
  | .clv => .clv
  | .tax => .tax
  | .txa => .txa
  | .tay => .tay
  | .tya => .tya
  | .tsx => .tsx
  | .txs => .txs
  | .nop => .nop
  | .brk => .brk
  | .illegal _ => .illegal

/-- The operand form of an instruction. JSR has the Absolute mode and a branch the Relative mode
(R65); an illegal slot carries the mode tag Implied (R61). -/
def Instr.operand : Instr → Operand
  | .lda o => o
  | .ldx o => o
  | .ldy o => o
  | .sta o => o
  | .stx o => o
  | .sty o => o
  | .adc o => o
  | .sbc o => o
  | .and o => o
  | .ora o => o
  | .eor o => o
  | .bit o => o
  | .asl o => o
  | .lsr o => o
  | .rol o => o
  | .ror o => o
  | .inc o => o
  | .dec o => o
  | .inx => .implied
  | .iny => .implied
  | .dex => .implied
  | .dey => .implied
  | .cmp o => o
  | .cpx o => o
  | .cpy o => o
  | .bcc disp => .relative disp
  | .bcs disp => .relative disp
  | .beq disp => .relative disp
  | .bne disp => .relative disp
  | .bmi disp => .relative disp
  | .bpl disp => .relative disp
  | .bvc disp => .relative disp
  | .bvs disp => .relative disp
  | .jmp o => o
  | .jsr target => .absolute target
  | .rts => .implied
  | .rti => .implied
  | .pha => .implied
  | .php => .implied
  | .pla => .implied
  | .plp => .implied
  | .clc => .implied
  | .sec => .implied
  | .cld => .implied
  | .sed => .implied
  | .cli => .implied
  | .sei => .implied
  | .clv => .implied
  | .tax => .implied
  | .txa => .implied
  | .tay => .implied
  | .tya => .implied
  | .tsx => .implied
  | .txs => .implied
  | .nop => .implied
  | .brk => .implied
  | .illegal _ => .implied

/-- The addressing mode of an instruction. -/
def Instr.mode (i : Instr) : Mode := i.operand.mode

/-- The opcode byte an illegal slot carries; none for a legal instruction. -/
def Instr.rawByte : Instr → Option Byte
  | .illegal raw => some raw
  | _ => none

end Sys2Proof
end

