-- ==== Sys2Proof/Decode.lean ====
section
/-! DEFINITION. The opcode table, the decoder and the encoder (30_encoding.md).
The decoder is total on any bytes: an opcode byte without a legal entry decodes to the ILLEGAL
instruction of that byte (R61, R62); a byte list that ends inside an instruction is rejected by name. -/

namespace Sys2Proof

/-! ### Byte order (R11, R46) -/

/-- `hi:lo` of two bytes: `hi` in bits 15..8 (R11). -/
def word (hi lo : Byte) : Addr := hi ++ lo

/-- `w[7:0]`. -/
def lowByte (w : Addr) : Byte := w.extractLsb' 0 8

/-- `w[15:8]`. -/
def highByte (w : Addr) : Byte := w.extractLsb' 8 8

/-- `zext_16(b)` (R12). -/
def zext16 (b : Byte) : Addr := b.setWidth 16

/-- `sext_16(b)` (R12). -/
def sext16 (b : Byte) : Addr := b.signExtend 16

/-! ### The opcode table (R61, R65) -/

/-- One entry of the "four parallel 256-entry tables" (R61), with the `pen` column of R65. -/
structure OpcodeRow where
  op : Op
  /-- Size in bytes, 0 for an illegal slot (R60, R61). -/
  size : Nat
  /-- Base cycle count. -/
  cycles : Nat
  mode : Mode
  /-- The `pen` column: one more cycle on a page cross (R80). -/
  pen : Bool
  deriving DecidableEq, Repr

/-- Every illegal slot's entry: (ILLEGAL, size 0, cycles 0, Implied) (R61). -/
def illegalRow : OpcodeRow := ⟨.illegal, 0, 0, .implied, false⟩

/-- Opcode bytes 0x00 to 0x0F (R64, R65). -/
def opcodeTable0 : List OpcodeRow := [
  ⟨.brk, 1, 7, .implied, false⟩,
  ⟨.ora, 2, 6, .indirectX, false⟩,
  illegalRow,
  illegalRow,
  illegalRow,
  ⟨.ora, 2, 3, .zeroPage, false⟩,
  ⟨.asl, 2, 5, .zeroPage, false⟩,
  illegalRow,
  ⟨.php, 1, 3, .implied, false⟩,
  ⟨.ora, 2, 2, .immediate, false⟩,
  ⟨.asl, 1, 2, .accumulator, false⟩,
  illegalRow,
  illegalRow,
  ⟨.ora, 3, 4, .absolute, false⟩,
  ⟨.asl, 3, 6, .absolute, false⟩,
  illegalRow]

/-- Opcode bytes 0x10 to 0x1F (R64, R65). -/
def opcodeTable1 : List OpcodeRow := [
  ⟨.bpl, 2, 2, .relative, false⟩,
  ⟨.ora, 2, 5, .indirectY, true⟩,
  illegalRow,
  illegalRow,
  illegalRow,
  ⟨.ora, 2, 4, .zeroPageX, false⟩,
  ⟨.asl, 2, 6, .zeroPageX, false⟩,
  illegalRow,
  ⟨.clc, 1, 2, .implied, false⟩,
  ⟨.ora, 3, 4, .absoluteY, true⟩,
  illegalRow,
  illegalRow,
  illegalRow,
  ⟨.ora, 3, 4, .absoluteX, true⟩,
  ⟨.asl, 3, 7, .absoluteX, false⟩,
  illegalRow]

/-- Opcode bytes 0x20 to 0x2F (R64, R65). -/
def opcodeTable2 : List OpcodeRow := [
  ⟨.jsr, 3, 6, .absolute, false⟩,
  ⟨.and, 2, 6, .indirectX, false⟩,
  illegalRow,
  illegalRow,
  ⟨.bit, 2, 3, .zeroPage, false⟩,
  ⟨.and, 2, 3, .zeroPage, false⟩,
  ⟨.rol, 2, 5, .zeroPage, false⟩,
  illegalRow,
  ⟨.plp, 1, 4, .implied, false⟩,
  ⟨.and, 2, 2, .immediate, false⟩,
  ⟨.rol, 1, 2, .accumulator, false⟩,
  illegalRow,
  ⟨.bit, 3, 4, .absolute, false⟩,
  ⟨.and, 3, 4, .absolute, false⟩,
  ⟨.rol, 3, 6, .absolute, false⟩,
  illegalRow]

/-- Opcode bytes 0x30 to 0x3F (R64, R65). -/
def opcodeTable3 : List OpcodeRow := [
  ⟨.bmi, 2, 2, .relative, false⟩,
  ⟨.and, 2, 5, .indirectY, true⟩,
  illegalRow,
  illegalRow,
  illegalRow,
  ⟨.and, 2, 4, .zeroPageX, false⟩,
  ⟨.rol, 2, 6, .zeroPageX, false⟩,
  illegalRow,
  ⟨.sec, 1, 2, .implied, false⟩,
  ⟨.and, 3, 4, .absoluteY, true⟩,
  illegalRow,
  illegalRow,
  illegalRow,
  ⟨.and, 3, 4, .absoluteX, true⟩,
  ⟨.rol, 3, 7, .absoluteX, false⟩,
  illegalRow]

/-- Opcode bytes 0x40 to 0x4F (R64, R65). -/
def opcodeTable4 : List OpcodeRow := [
  ⟨.rti, 1, 6, .implied, false⟩,
  ⟨.eor, 2, 6, .indirectX, false⟩,
  illegalRow,
  illegalRow,
  illegalRow,
  ⟨.eor, 2, 3, .zeroPage, false⟩,
  ⟨.lsr, 2, 5, .zeroPage, false⟩,
  illegalRow,
  ⟨.pha, 1, 3, .implied, false⟩,
  ⟨.eor, 2, 2, .immediate, false⟩,
  ⟨.lsr, 1, 2, .accumulator, false⟩,
  illegalRow,
  ⟨.jmp, 3, 3, .absolute, false⟩,
  ⟨.eor, 3, 4, .absolute, false⟩,
  ⟨.lsr, 3, 6, .absolute, false⟩,
  illegalRow]

/-- Opcode bytes 0x50 to 0x5F (R64, R65). -/
def opcodeTable5 : List OpcodeRow := [
  ⟨.bvc, 2, 2, .relative, false⟩,
  ⟨.eor, 2, 5, .indirectY, true⟩,
  illegalRow,
  illegalRow,
  illegalRow,
  ⟨.eor, 2, 4, .zeroPageX, false⟩,
  ⟨.lsr, 2, 6, .zeroPageX, false⟩,
  illegalRow,
  ⟨.cli, 1, 2, .implied, false⟩,
  ⟨.eor, 3, 4, .absoluteY, true⟩,
  illegalRow,
  illegalRow,
  illegalRow,
  ⟨.eor, 3, 4, .absoluteX, true⟩,
  ⟨.lsr, 3, 7, .absoluteX, false⟩,
  illegalRow]

/-- Opcode bytes 0x60 to 0x6F (R64, R65). -/
def opcodeTable6 : List OpcodeRow := [
  ⟨.rts, 1, 6, .implied, false⟩,
  ⟨.adc, 2, 6, .indirectX, false⟩,
  illegalRow,
  illegalRow,
  illegalRow,
  ⟨.adc, 2, 3, .zeroPage, false⟩,
  ⟨.ror, 2, 5, .zeroPage, false⟩,
  illegalRow,
  ⟨.pla, 1, 4, .implied, false⟩,
  ⟨.adc, 2, 2, .immediate, false⟩,
  ⟨.ror, 1, 2, .accumulator, false⟩,
  illegalRow,
  ⟨.jmp, 3, 5, .indirect, false⟩,
  ⟨.adc, 3, 4, .absolute, false⟩,
  ⟨.ror, 3, 6, .absolute, false⟩,
  illegalRow]

/-- Opcode bytes 0x70 to 0x7F (R64, R65). -/
def opcodeTable7 : List OpcodeRow := [
  ⟨.bvs, 2, 2, .relative, false⟩,
  ⟨.adc, 2, 5, .indirectY, true⟩,
  illegalRow,
  illegalRow,
  illegalRow,
  ⟨.adc, 2, 4, .zeroPageX, false⟩,
  ⟨.ror, 2, 6, .zeroPageX, false⟩,
  illegalRow,
  ⟨.sei, 1, 2, .implied, false⟩,
  ⟨.adc, 3, 4, .absoluteY, true⟩,
  illegalRow,
  illegalRow,
  illegalRow,
  ⟨.adc, 3, 4, .absoluteX, true⟩,
  ⟨.ror, 3, 7, .absoluteX, false⟩,
  illegalRow]

/-- Opcode bytes 0x80 to 0x8F (R64, R65). -/
def opcodeTable8 : List OpcodeRow := [
  illegalRow,
  ⟨.sta, 2, 6, .indirectX, false⟩,
  illegalRow,
  illegalRow,
  ⟨.sty, 2, 3, .zeroPage, false⟩,
  ⟨.sta, 2, 3, .zeroPage, false⟩,
  ⟨.stx, 2, 3, .zeroPage, false⟩,
  illegalRow,
  ⟨.dey, 1, 2, .implied, false⟩,
  illegalRow,
  ⟨.txa, 1, 2, .implied, false⟩,
  illegalRow,
  ⟨.sty, 3, 4, .absolute, false⟩,
  ⟨.sta, 3, 4, .absolute, false⟩,
  ⟨.stx, 3, 4, .absolute, false⟩,
  illegalRow]

/-- Opcode bytes 0x90 to 0x9F (R64, R65). -/
def opcodeTable9 : List OpcodeRow := [
  ⟨.bcc, 2, 2, .relative, false⟩,
  ⟨.sta, 2, 6, .indirectY, false⟩,
  illegalRow,
  illegalRow,
  ⟨.sty, 2, 4, .zeroPageX, false⟩,
  ⟨.sta, 2, 4, .zeroPageX, false⟩,
  ⟨.stx, 2, 4, .zeroPageY, false⟩,
  illegalRow,
  ⟨.tya, 1, 2, .implied, false⟩,
  ⟨.sta, 3, 5, .absoluteY, false⟩,
  ⟨.txs, 1, 2, .implied, false⟩,
  illegalRow,
  illegalRow,
  ⟨.sta, 3, 5, .absoluteX, false⟩,
  illegalRow,
  illegalRow]

/-- Opcode bytes 0xA0 to 0xAF (R64, R65). -/
def opcodeTableA : List OpcodeRow := [
  ⟨.ldy, 2, 2, .immediate, false⟩,
  ⟨.lda, 2, 6, .indirectX, false⟩,
  ⟨.ldx, 2, 2, .immediate, false⟩,
  illegalRow,
  ⟨.ldy, 2, 3, .zeroPage, false⟩,
  ⟨.lda, 2, 3, .zeroPage, false⟩,
  ⟨.ldx, 2, 3, .zeroPage, false⟩,
  illegalRow,
  ⟨.tay, 1, 2, .implied, false⟩,
  ⟨.lda, 2, 2, .immediate, false⟩,
  ⟨.tax, 1, 2, .implied, false⟩,
  illegalRow,
  ⟨.ldy, 3, 4, .absolute, false⟩,
  ⟨.lda, 3, 4, .absolute, false⟩,
  ⟨.ldx, 3, 4, .absolute, false⟩,
  illegalRow]

/-- Opcode bytes 0xB0 to 0xBF (R64, R65). -/
def opcodeTableB : List OpcodeRow := [
  ⟨.bcs, 2, 2, .relative, false⟩,
  ⟨.lda, 2, 5, .indirectY, true⟩,
  illegalRow,
  illegalRow,
  ⟨.ldy, 2, 4, .zeroPageX, false⟩,
  ⟨.lda, 2, 4, .zeroPageX, false⟩,
  ⟨.ldx, 2, 4, .zeroPageY, false⟩,
  illegalRow,
  ⟨.clv, 1, 2, .implied, false⟩,
  ⟨.lda, 3, 4, .absoluteY, true⟩,
  ⟨.tsx, 1, 2, .implied, false⟩,
  illegalRow,
  ⟨.ldy, 3, 4, .absoluteX, true⟩,
  ⟨.lda, 3, 4, .absoluteX, true⟩,
  ⟨.ldx, 3, 4, .absoluteY, true⟩,
  illegalRow]

/-- Opcode bytes 0xC0 to 0xCF (R64, R65). -/
def opcodeTableC : List OpcodeRow := [
  ⟨.cpy, 2, 2, .immediate, false⟩,
  ⟨.cmp, 2, 6, .indirectX, false⟩,
  illegalRow,
  illegalRow,
  ⟨.cpy, 2, 3, .zeroPage, false⟩,
  ⟨.cmp, 2, 3, .zeroPage, false⟩,
  ⟨.dec, 2, 5, .zeroPage, false⟩,
  illegalRow,
  ⟨.iny, 1, 2, .implied, false⟩,
  ⟨.cmp, 2, 2, .immediate, false⟩,
  ⟨.dex, 1, 2, .implied, false⟩,
  illegalRow,
  ⟨.cpy, 3, 4, .absolute, false⟩,
  ⟨.cmp, 3, 4, .absolute, false⟩,
  ⟨.dec, 3, 6, .absolute, false⟩,
  illegalRow]

/-- Opcode bytes 0xD0 to 0xDF (R64, R65). -/
def opcodeTableD : List OpcodeRow := [
  ⟨.bne, 2, 2, .relative, false⟩,
  ⟨.cmp, 2, 5, .indirectY, true⟩,
  illegalRow,
  illegalRow,
  illegalRow,
  ⟨.cmp, 2, 4, .zeroPageX, false⟩,
  ⟨.dec, 2, 6, .zeroPageX, false⟩,
  illegalRow,
  ⟨.cld, 1, 2, .implied, false⟩,
  ⟨.cmp, 3, 4, .absoluteY, true⟩,
  illegalRow,
  illegalRow,
  illegalRow,
  ⟨.cmp, 3, 4, .absoluteX, true⟩,
  ⟨.dec, 3, 7, .absoluteX, false⟩,
  illegalRow]

/-- Opcode bytes 0xE0 to 0xEF (R64, R65). -/
def opcodeTableE : List OpcodeRow := [
  ⟨.cpx, 2, 2, .immediate, false⟩,
  ⟨.sbc, 2, 6, .indirectX, false⟩,
  illegalRow,
  illegalRow,
  ⟨.cpx, 2, 3, .zeroPage, false⟩,
  ⟨.sbc, 2, 3, .zeroPage, false⟩,
  ⟨.inc, 2, 5, .zeroPage, false⟩,
  illegalRow,
  ⟨.inx, 1, 2, .implied, false⟩,
  ⟨.sbc, 2, 2, .immediate, false⟩,
  ⟨.nop, 1, 2, .implied, false⟩,
  illegalRow,
  ⟨.cpx, 3, 4, .absolute, false⟩,
  ⟨.sbc, 3, 4, .absolute, false⟩,
  ⟨.inc, 3, 6, .absolute, false⟩,
  illegalRow]

/-- Opcode bytes 0xF0 to 0xFF (R64, R65). -/
def opcodeTableF : List OpcodeRow := [
  ⟨.beq, 2, 2, .relative, false⟩,
  ⟨.sbc, 2, 5, .indirectY, true⟩,
  illegalRow,
  illegalRow,
  illegalRow,
  ⟨.sbc, 2, 4, .zeroPageX, false⟩,
  ⟨.inc, 2, 6, .zeroPageX, false⟩,
  illegalRow,
  ⟨.sed, 1, 2, .implied, false⟩,
  ⟨.sbc, 3, 4, .absoluteY, true⟩,
  illegalRow,
  illegalRow,
  illegalRow,
  ⟨.sbc, 3, 4, .absoluteX, true⟩,
  ⟨.inc, 3, 7, .absoluteX, false⟩,
  illegalRow]

/-- The 256 entries, indexed by the raw opcode byte (R61, R64, R65). -/
def opcodeTable : List OpcodeRow :=
  opcodeTable0 ++ opcodeTable1 ++ opcodeTable2 ++ opcodeTable3 ++
  opcodeTable4 ++ opcodeTable5 ++ opcodeTable6 ++ opcodeTable7 ++
  opcodeTable8 ++ opcodeTable9 ++ opcodeTableA ++ opcodeTableB ++
  opcodeTableC ++ opcodeTableD ++ opcodeTableE ++ opcodeTableF

/-- The entry of a raw opcode byte: a pure table lookup that cannot fail (R62). -/
def opcodeRow (b : Byte) : OpcodeRow := opcodeTable.getD b.toNat illegalRow

/-- The table's entry for a mnemonic in a mode, if it has one. -/
def rowOf (op : Op) (mode : Mode) : Option OpcodeRow :=
  opcodeTable.find? fun r => r.op == op && r.mode == mode

/-- The opcode byte of a mnemonic in a mode, if the table has one: the index of its entry. -/
def opcodeOf (op : Op) (mode : Mode) : Option Byte :=
  (opcodeTable.findIdx? fun r => r.op == op && r.mode == mode).map (BitVec.ofNat 8)

/-! ### Decoding (R60, R62, R63) -/

/-- The operand form of a mode with the operand bytes b1 and b2 (R60, R63). -/
def Mode.operand (mode : Mode) (b1 b2 : Byte) : Operand :=
  match mode with
  | .implied => .implied
  | .accumulator => .accumulator
  | .immediate => .immediate b1
  | .zeroPage => .zeroPage b1
  | .zeroPageX => .zeroPageX b1
  | .zeroPageY => .zeroPageY b1
  | .absolute => .absolute (word b2 b1)
  | .absoluteX => .absoluteX (word b2 b1)
  | .absoluteY => .absoluteY (word b2 b1)
  | .indirect => .indirect (word b2 b1)
  | .indirectX => .indirectX b1
  | .indirectY => .indirectY b1
  | .relative => .relative b1

/-- The instruction of a mnemonic, with its operand form and the three fetched bytes. -/
def Op.instr (op : Op) (o : Operand) (b0 b1 b2 : Byte) : Instr :=
  match op with
  | .lda => .lda o
  | .ldx => .ldx o
  | .ldy => .ldy o
  | .sta => .sta o
  | .stx => .stx o
  | .sty => .sty o
  | .adc => .adc o
  | .sbc => .sbc o
  | .and => .and o
  | .ora => .ora o
  | .eor => .eor o
  | .bit => .bit o
  | .asl => .asl o
  | .lsr => .lsr o
  | .rol => .rol o
  | .ror => .ror o
  | .inc => .inc o
  | .dec => .dec o
  | .inx => .inx
  | .iny => .iny
  | .dex => .dex
  | .dey => .dey
  | .cmp => .cmp o
  | .cpx => .cpx o
  | .cpy => .cpy o
  | .bcc => .bcc b1
  | .bcs => .bcs b1
  | .beq => .beq b1
  | .bne => .bne b1
  | .bmi => .bmi b1
  | .bpl => .bpl b1
  | .bvc => .bvc b1
  | .bvs => .bvs b1
  | .jmp => .jmp o
  | .jsr => .jsr (word b2 b1)
  | .rts => .rts
  | .rti => .rti
  | .pha => .pha
  | .php => .php
  | .pla => .pla
  | .plp => .plp
  | .clc => .clc
  | .sec => .sec
  | .cld => .cld
  | .sed => .sed
  | .cli => .cli
  | .sei => .sei
  | .clv => .clv
  | .tax => .tax
  | .txa => .txa
  | .tay => .tay
  | .tya => .tya
  | .tsx => .tsx
  | .txs => .txs
  | .nop => .nop
  | .brk => .brk
  | .illegal => .illegal b0

/-- `Decode(b0, b1, b2)`: total, by table lookup on the opcode byte (R62). Bytes beyond the
instruction's size are not used (R49). -/
def decode (b0 b1 b2 : Byte) : Instr :=
  (opcodeRow b0).op.instr ((opcodeRow b0).mode.operand b1 b2) b0 b1 b2

/-- Why a byte list holds no whole instruction. -/
inductive DecodeError where
  /-- The list is empty. -/
  | noBytes
  /-- The list ends before the instruction's last byte. -/
  | truncated
  deriving DecidableEq, Repr

/-- Decode the first instruction of a byte list and return the rest of the list. The opcode byte
alone decides the length (R60); an illegal slot takes its opcode byte. -/
def decodeBytes : List Byte → Except DecodeError (Instr × List Byte)
  | [] => .error .noBytes
  | b0 :: rest =>
    match (opcodeRow b0).size, rest with
    | 0, _ => .ok (decode b0 0 0, rest)
    | 1, _ => .ok (decode b0 0 0, rest)
    | 2, b1 :: rest' => .ok (decode b0 b1 0, rest')
    | 2, _ => .error .truncated
    | _, b1 :: b2 :: rest' => .ok (decode b0 b1 b2, rest')
    | _, _ => .error .truncated

/-! ### Encoding (R60, R63, R65) -/

/-- The operand bytes of an operand form, little-endian (R60, R46). -/
def Operand.bytes : Operand → List Byte
  | .implied => []
  | .accumulator => []
  | .immediate value => [value]
  | .zeroPage zp => [zp]
  | .zeroPageX zp => [zp]
  | .zeroPageY zp => [zp]
  | .absolute addr => [lowByte addr, highByte addr]
  | .absoluteX addr => [lowByte addr, highByte addr]
  | .absoluteY addr => [lowByte addr, highByte addr]
  | .indirect ptr => [lowByte ptr, highByte ptr]
  | .indirectX zp => [zp]
  | .indirectY zp => [zp]
  | .relative disp => [disp]

/-- The bytes of an instruction, the opcode first. A term that is not well-formed has no bytes. -/
def encode (i : Instr) : List Byte :=
  match i.rawByte with
  | some raw => if illegalBytes.contains raw then [raw] else []
  | none =>
    match opcodeOf i.op i.mode with
    | some b0 => b0 :: i.operand.bytes
    | none => []

/-! ### The opcode table's own numbering of bits -/

/-- Byte `k` of an instruction whose first `nbits` bits are `w`, byte 0 the lowest; every bit above
`nbits` is 0. -/
def tableByte (nbits w k : Nat) : Byte := BitVec.ofNat 8 (w % 2 ^ nbits / 256 ^ k)

/-- What the decoder reads from an instruction whose bits are `w`, numbered as
spec/opcode_table.json numbers them. It refuses nothing: decoding is total (R62). -/
def decodeTableWord (nbits w : Nat) : Option Instr :=
  some (decode (tableByte nbits w 0) (tableByte nbits w 1) (tableByte nbits w 2))

end Sys2Proof
end

