-- ==== Sys2Proof/Config.lean ====
section
/-! DEFINITION. The parameters of 00_scope.md R9, each with the default the rule gives.
Those that a step reads are the fields of `Config`; those that only the reset reads are
`ResetValues` and the arguments of `boot` in Machine/Driver.lean (MEMORY_INIT, the cart image, CART_BASE). -/

namespace Sys2Proof

/-- `STACK_ORDER` (R9, R52, R53). The default is the source's own order (90_conflicts.md C1). -/
inductive StackOrder where
  /-- Push decrements then writes, pull reads then increments. -/
  | decThenWrite
  /-- Push writes then decrements, pull increments then reads. -/
  | writeThenDec
  deriving DecidableEq, Repr

/-- `BRK_MODE` (R9, R214): whether BRK halts the core or jumps through a vector. -/
inductive BrkMode where
  | halt
  | vector
  deriving DecidableEq, Repr

/-- The parameters of R9 that a step reads. R33 fixes them for a run. -/
structure Config where
  /-- `STACK_ORDER`. -/
  stackOrder : StackOrder := .decThenWrite
  /-- `DECIMAL_ENABLED`: whether ADC and SBC honour the D flag. -/
  decimalEnabled : Bool := true
  /-- `BRK_MODE`. -/
  brkMode : BrkMode := .halt
  /-- `BRK_VECTOR`: the address BRK reads in `Vector` mode only. -/
  brkVector : Addr := 0xFFFE#16
  deriving DecidableEq, Repr

/-- `RESET_VALUES` (R9, R260): the caller-supplied initial registers and flags, every field 0 by default. -/
structure ResetValues where
  pc : Addr := 0#16
  a : Byte := 0#8
  x : Byte := 0#8
  y : Byte := 0#8
  sp : Byte := 0#8
  c : Bool := false
  z : Bool := false
  i : Bool := false
  d : Bool := false
  v : Bool := false
  n : Bool := false
  deriving DecidableEq, Repr

end Sys2Proof
end

