-- ==== Sys2Proof/Machine/State.lean ====
section
/-! DEFINITION. The state of the machine (10_state.md R20), the reasons a step can stop, and the
state after reset (70_reset_and_hazards.md R260). Plain data throughout. -/

namespace Sys2Proof.Machine

/-- The memory of the block: the bytes that differ from what an unlisted address reads as, by
address (R41, R44). Its canonical form is `Memory.wf` in Machine/Memory.lean. -/
abbrev Memory := List Host.Cell

/-- The six single-bit flags (R26). There is no other status bit (R29). -/
structure Flags where
  /-- N, negative. -/
  n : Bool
  /-- V, overflow. -/
  v : Bool
  /-- D, decimal. -/
  d : Bool
  /-- I, interrupt-disable. -/
  i : Bool
  /-- Z, zero. -/
  z : Bool
  /-- C, carry. -/
  c : Bool
  deriving DecidableEq, Repr

/-- Why the core is halted (R30, R92). -/
inductive HaltReason where
  /-- An illegal opcode was fetched: its address and the raw byte (R231). -/
  | illegalOpcode (address : Addr) (rawByte : Byte)
  /-- BRK in `Halt` mode: the address of the BRK (R214). -/
  | brk (address : Addr)
  deriving DecidableEq, Repr

/-- The result a step reports to the driver (R92). -/
inductive StepResult where
  /-- An instruction completed and consumed this many cycles. -/
  | executed (cycles : Nat)
  /-- The core is halted for this reason; this call consumed this many cycles. -/
  | halt (reason : HaltReason) (cycles : Nat)
  deriving DecidableEq, Repr

/-- The state record of R20, with the parameters of the run beside it. -/
structure State where
  /-- PC (R25). -/
  pc : Addr
  /-- A, the accumulator (R21). -/
  a : Byte
  /-- X (R22). -/
  x : Byte
  /-- Y (R23). -/
  y : Byte
  /-- SP (R24). -/
  sp : Byte
  /-- C, Z, I, D, V, N (R26). -/
  flags : Flags
  /-- `halted` (R30). -/
  halted : Bool
  /-- `halt_reason` (R30). -/
  haltReason : Option HaltReason
  /-- `cycles`, the cumulative cycle counter: unbounded (R31, R10). -/
  cycles : Nat
  /-- `mem` (R20, R41). -/
  mem : Memory
  /-- The MODEL'S own field, not state of the block: the parameters of R9 that a step reads. R33
  fixes them for a run; no step writes them (assumption log 2). -/
  cfg : Config
  deriving DecidableEq, Repr

/-- Reasons a step stops with a fault. Safe: no step of this model raises one. -/
inductive Fault where
  /-- `MemoryBusError`, which R232 names and says "is never raised by the block". Raised by nothing. -/
  | memoryBusError
  deriving DecidableEq, Repr

/-- Reasons the model gives an instruction term no meaning. -/
inductive Refusal where
  /-- The instruction has no meaning in the model yet. Raised by a refused arm of `exec` only; safe.
  No arm is refused. -/
  | notModelled (mnemonic : String)
  /-- The term is no instruction: the opcode table has no entry for this mnemonic in this mode, or
  the byte of an ILLEGAL term is a legal opcode (R82: "No legal opcode applies ..."). Raised by
  `execute` and `execIllegal`; safe, and never raised by a step, whose decoder yields only
  well-formed instructions. -/
  | noSuchForm (op : Op) (mode : Mode)
  deriving DecidableEq, Repr

/-- The state a reset constructs from the caller's values, the run's parameters and the initial
memory (R260). No vector is read from memory (R261). -/
def State.resetWith (rv : ResetValues) (cfg : Config) (mem : Memory) : State where
  pc := rv.pc
  a := rv.a
  x := rv.x
  y := rv.y
  sp := rv.sp
  flags := ⟨rv.n, rv.v, rv.d, rv.i, rv.z, rv.c⟩
  halted := false
  haltReason := none
  cycles := 0
  mem := mem
  cfg := cfg

/-- The machine right after reset with every parameter of R9 at its default (R260; assumption log 3):
registers and flags 0, not halted, memory 0 everywhere. -/
def State.reset : State := State.resetWith {} {} []

end Sys2Proof.Machine
end

