-- ==== Sys2Proof/Machine/Flags.lean ====
section
/-! DEFINITION. Every flag computation of the spec: the NZ pair (00_scope.md R13), the status byte
(10_state.md R27, R28), the addition and subtraction cores in binary and decimal (42_arithmetic.md
R120-R123) and the compare core (46_compare.md R160). -/

namespace Sys2Proof.Machine

/-- `NZ(v)`: Z says whether v is 0, N is bit 7 of v (R13). -/
def Flags.nz (p : Flags) (v : Byte) : Flags := { p with z := v == 0#8, n := v.getLsbD 7 }

/-- `PackP()`: the layout N V 1 1 D I Z C, bits 5 and 4 always 1 (R27). -/
def Flags.pack (p : Flags) : Byte :=
  BitVec.ofBool p.n ++ BitVec.ofBool p.v ++ 1#1 ++ 1#1 ++
    BitVec.ofBool p.d ++ BitVec.ofBool p.i ++ BitVec.ofBool p.z ++ BitVec.ofBool p.c

/-- `UnpackP(b)`: bits 5 and 4 are discarded (R28). -/
def Flags.unpack (b : Byte) : Flags where
  n := b.getLsbD 7
  v := b.getLsbD 6
  d := b.getLsbD 3
  i := b.getLsbD 2
  z := b.getLsbD 1
  c := b.getLsbD 0

/-- The result of an addition or subtraction core: the byte and the four flags it gives. -/
structure Sum where
  r : Byte
  c : Bool
  z : Bool
  v : Bool
  n : Bool
  deriving DecidableEq, Repr

/-- `AddBin(a, m, c)`: the exact sum narrowed to a byte, carry when it exceeds 0xFF, overflow when
operands of equal sign give a result of the other sign (R120); Z and N are those of the result (R124). -/
def addBin (a m : Byte) (c : Bool) : Sum :=
  let s := a.toNat + m.toNat + c.toNat
  let r := BitVec.ofNat 8 s
  { r := r
    c := decide (s > 0xFF)
    z := r == 0#8
    v := ((~~~(a ^^^ m)) &&& (a ^^^ r)).getLsbD 7
    n := r.getLsbD 7 }

/-- `SubBin(a, m, c)`: addition of the complement; carry 1 means no borrow (R122). -/
def subBin (a m : Byte) (c : Bool) : Sum := addBin a (~~~m) c

/-- `AddDec(a, m, c)`: the digit-corrected sum. Z comes from the binary sum, N and V from the value
before the high-digit correction, C and the result from the full correction (R121). -/
def addDec (a m : Byte) (c : Bool) : Sum :=
  let al0 := (a &&& 0x0F#8).toNat + (m &&& 0x0F#8).toNat + c.toNat
  let al := if al0 ≥ 0x0A then (al0 + 0x06) % 0x10 + 0x10 else al0
  let t := (a &&& 0xF0#8).toNat + (m &&& 0xF0#8).toNat + al
  let ts : Int := (a &&& 0xF0#8).toInt + (m &&& 0xF0#8).toInt + al
  let t' := if t ≥ 0xA0 then t + 0x60 else t
  { r := BitVec.ofNat 8 t'
    c := decide (t' ≥ 0x100)
    z := (addBin a m c).z
    v := decide (ts < -128 ∨ ts > 127)
    n := t.testBit 7 }

/-- `SubDec(a, m, c)`: only the result is decimal, the four flags are those of the binary
subtraction (R123). -/
def subDec (a m : Byte) (c : Bool) : Sum :=
  let al0 : Int := ((a &&& 0x0F#8).toNat : Int) - (m &&& 0x0F#8).toNat + c.toNat - 1
  let al := if al0 < 0 then (al0 - 0x06) % 0x10 - 0x10 else al0
  let t : Int := ((a &&& 0xF0#8).toNat : Int) - (m &&& 0xF0#8).toNat + al
  let t' := if t < 0 then t - 0x60 else t
  { subBin a m c with r := BitVec.ofInt 8 t' }

/-- Write C, Z, V and N from a core's result (R124, R125). -/
def Flags.ofSum (p : Flags) (s : Sum) : Flags := { p with c := s.c, z := s.z, v := s.v, n := s.n }

/-- `Compare(reg, m)`: C when reg ≥ m unsigned, Z when equal, N bit 7 of the difference (R160). -/
def Flags.compare (p : Flags) (reg m : Byte) : Flags :=
  { p with c := decide (reg.toNat ≥ m.toNat), z := reg == m, n := (reg - m).getLsbD 7 }

end Sys2Proof.Machine
end

