-- ==== Sys2Proof/Machine/Memory.lean ====
section
/-! DEFINITION. The byte store (20_memory.md R40-R44) as a list of (address, byte) pairs in one
canonical form: addresses strictly rising and below 65536, no entry equal to what an unlisted
address reads as. -/

namespace Sys2Proof.Machine

/-- What an address without an entry reads as: 0, the default MEMORY_INIT (R41, R9; assumption log 4). -/
def Memory.unlisted : Byte := 0#8

/-- The byte at an address. -/
def Memory.read : Memory → Nat → Byte
  | [], _ => Memory.unlisted
  | (k, v) :: m, a => if a = k then v else Memory.read m a

/-- Remove the entry of an address. -/
def Memory.erase : Memory → Nat → Memory
  | [], _ => []
  | (k, v) :: m, a => if k = a then Memory.erase m a else (k, v) :: Memory.erase m a

/-- Put the entry of an address in its place. -/
def Memory.insert : Memory → Nat → Byte → Memory
  | [], a, v => [(a, v)]
  | (k, w) :: m, a, v =>
    if a < k then (a, v) :: (k, w) :: m
    else if a = k then (a, v) :: m
    else (k, w) :: Memory.insert m a v

/-- Store a byte. Writing what an unlisted address reads as removes the entry. -/
def Memory.write (m : Memory) (a : Nat) (v : Byte) : Memory :=
  if v = Memory.unlisted then Memory.erase m a else Memory.insert m a v

/-- The canonical form. -/
def Memory.wf : Memory → Bool
  | [] => true
  | (k, v) :: m =>
    decide (k < 65536) && decide (v ≠ Memory.unlisted) && m.all (fun c => decide (k < c.1)) &&
      Memory.wf m

end Sys2Proof.Machine
end

