-- ==== Sys2Proof/Machine/Ops.lean ====
section
/-! DEFINITION. The named operations over memory, registers and the stack (20_memory.md), the fetch
(40_execution_cycle.md R93), and the entries and returns of 60_exceptions.md R234, R235. -/

namespace Sys2Proof.Machine

/-! ### Registers (R13) -/

def setPc (s : State) (v : Addr) : State := { s with pc := v }
def setA (s : State) (v : Byte) : State := { s with a := v }
def setX (s : State) (v : Byte) : State := { s with x := v }
def setY (s : State) (v : Byte) : State := { s with y := v }
def setSp (s : State) (v : Byte) : State := { s with sp := v }
def setFlags (s : State) (p : Flags) : State := { s with flags := p }

/-- `NZ(v)` on the state (R13). -/
def setNZ (s : State) (v : Byte) : State := setFlags s (s.flags.nz v)

/-- Add a step's cycles to the cumulative counter (R31, R97). -/
def addCycles (s : State) (n : Nat) : State := { s with cycles := s.cycles + n }

/-! ### Memory (R42, R43, R14) -/

/-- `MemRead(addr, 1)`: no side effect, never faults (R42). -/
def memRead (s : State) (addr : Addr) : Byte := s.mem.read addr.toNat

/-- `MemWrite(addr, 1, v)`: changes that byte and nothing else, never faults (R43). -/
def memWrite (s : State) (addr : Addr) (v : Byte) : State :=
  { s with mem := s.mem.write addr.toNat v }

/-- `Read16(addr)`: little-endian, the second address wraps modulo 2^16 (R14). -/
def read16 (s : State) (addr : Addr) : Addr := word (memRead s (addr + 1)) (memRead s addr)

/-! ### The stack (R51-R54) -/

/-- `0x0100 | SP`: the address in the stack page that SP indexes (R51). -/
def stackAddr (sp : Byte) : Addr := word 0x01#8 sp

/-- Where `Push` writes: at the decremented SP in the order `DecThenWrite`, at SP itself in the
order `WriteThenDec` (R52). -/
def pushAddr (s : State) : Addr :=
  match s.cfg.stackOrder with
  | .decThenWrite => stackAddr (s.sp - 1)
  | .writeThenDec => stackAddr s.sp

/-- Where `Pull` reads: at SP in the order `DecThenWrite`, at the incremented SP in the order
`WriteThenDec` (R53). -/
def pullAddr (s : State) : Addr :=
  match s.cfg.stackOrder with
  | .decThenWrite => stackAddr s.sp
  | .writeThenDec => stackAddr (s.sp + 1)

/-- `Push(v)`: the byte is written where STACK_ORDER selects and SP moves down by one, wrapping
silently (R52). -/
def push (s : State) (v : Byte) : State := setSp (memWrite s (pushAddr s) v) (s.sp - 1)

/-- The byte `Pull()` returns (R53). -/
def pulled (s : State) : Byte := memRead s (pullAddr s)

/-- The state after `Pull()`: SP moves up by one under either order (R53). -/
def afterPull (s : State) : State := setSp s (s.sp + 1)

/-- `Push16(w)`: the high byte, then the low byte (R54). -/
def push16 (s : State) (w : Addr) : State := push (push s (highByte w)) (lowByte w)

/-- The value `Pull16()` returns: the low byte first, then the high byte (R54). -/
def pulled16 (s : State) : Addr := word (pulled (afterPull s)) (pulled s)

/-- The state after `Pull16()`. -/
def afterPull16 (s : State) : State := afterPull (afterPull s)

/-! ### Fetch (R93) -/

/-- Fetch the three bytes at PC, PC+1 and PC+2, each address modulo 2^16, and decode them. -/
def fetch (s : State) : Instr :=
  decode (memRead s s.pc) (memRead s (s.pc + 1)) (memRead s (s.pc + 2))

/-! ### What an instruction reports to the step (R95) -/

/-- The record `Execute` returns: the program counter it assigned, if any, the cycles it adds, and
the halt it asks for, if any (R95). -/
structure Report where
  nextPc : Option Addr := none
  extra : Nat := 0
  halt : Option HaltReason := none
  deriving DecidableEq, Repr

/-- Set the halt fields (R30, R90). -/
def setHalt (s : State) (reason : HaltReason) : State :=
  { s with halted := true, haltReason := some reason }

/-- The end of a step (R90): PC takes the assigned value or moves past the instruction (R96), the
cycles are added (R97), then the halt fields are written. `pc0` is the address of the opcode. -/
def finish (row : OpcodeRow) (pcross : Bool) (pc0 : Addr) (out : Report) (s : State) : State :=
  let s1 := setPc s (out.nextPc.getD (pc0 + BitVec.ofNat 16 row.size))
  let s2 := addCycles s1 (row.cycles + (if row.pen && pcross then 1 else 0) + out.extra)
  match out.halt with
  | none => s2
  | some reason => setHalt s2 reason

/-! ### Entries and return (R234, R235) -/

/-- The IllegalOpcode fault (R231): the halt fields record the address and the raw byte; PC, the
registers, the flags, memory and the cycle counter keep their values. -/
def raiseIllegalOpcode (s : State) (raw : Byte) : State := setHalt s (.illegalOpcode s.pc raw)

/-- What BRK saves and sets, in both modes (R214, R234): the address BRK + 2 pushed high byte first,
then the status byte with bits 5 and 4 set, then I set. -/
def enterBreak (s : State) : State :=
  let s1 := push16 s (s.pc + 2)
  let s2 := push s1 s.flags.pack
  setFlags s2 { s2.flags with i := true }

/-- Where BRK goes (R214): in `Vector` mode to the word at BRK_VECTOR, read after the pushes; in
`Halt` mode past its one byte, with the halt `Break` of its address. -/
def breakReport (pc0 : Addr) (s : State) : Report :=
  match s.cfg.brkMode with
  | .vector => { nextPc := some (read16 s s.cfg.brkVector) }
  | .halt => { halt := some (.brk pc0) }

/-- What RTI restores (R183): the six flags from the first pulled byte, then SP past the two bytes
of the return address. -/
def leaveInterrupt (s : State) : State :=
  afterPull16 (setFlags (afterPull s) (Flags.unpack (pulled s)))

/-- The return address RTI pulls after the status byte, used as pulled (R183). -/
def interruptReturn (s : State) : Addr := pulled16 (afterPull s)

end Sys2Proof.Machine
end

