-- ==== Sys2Proof/Machine/Operands.lean ====
section
/-! DEFINITION. The addressing-mode resolver (30_encoding.md R70-R81), the operand helpers (R82) and
the frame every instruction runs in (40_execution_cycle.md R95-R97). -/

namespace Sys2Proof.Machine

/-- The resolver's result (R70). -/
inductive EffectiveOperand where
  /-- No operand. -/
  | none
  /-- The accumulator. -/
  | acc
  /-- An immediate byte. -/
  | imm (v : Byte)
  /-- A memory operand at its effective address. -/
  | addr (ea : Addr)
  deriving DecidableEq, Repr

/-- Whether two addresses lie in different pages (R18, R75): the page-cross bit. -/
def pageCross (p q : Addr) : Bool := highByte p != highByte q

/-- The word at a zero-page pointer: the high byte comes from the next zero-page byte, with 8-bit
wrap (R78, R79). -/
def zeroPageWord (s : State) (p : Byte) : Addr :=
  word (memRead s (zext16 (p + 1))) (memRead s (zext16 p))

/-- The word at the pointer of JMP indirect: the high byte comes from the same page (R76). -/
def indirectWord (s : State) (ptr : Addr) : Addr :=
  word (memRead s ((ptr &&& 0xFF00#16) ||| ((ptr + 1) &&& 0x00FF#16))) (memRead s ptr)

/-- An indexed address with its page-cross bit (R75, R79). -/
def indexed (base : Addr) (index : Byte) : EffectiveOperand × Bool :=
  (.addr (base + zext16 index), pageCross (base + zext16 index) base)

/-- The target of a branch at PC with its page-cross bit: both are measured from the instruction
after the branch (R77). -/
def branchTarget (pc : Addr) (disp : Byte) : EffectiveOperand × Bool :=
  (.addr (pc + 2 + sext16 disp), pageCross (pc + 2 + sext16 disp) (pc + 2))

/-- `Resolve(mode, PC, b1, b2)`: the effective operand and the page-cross bit (R70-R80). It writes
nothing and resolves for every input. -/
def resolve (s : State) : Operand → EffectiveOperand × Bool
  | .implied => (.none, false)
  | .accumulator => (.acc, false)
  | .immediate value => (.imm value, false)
  | .zeroPage zp => (.addr (zext16 zp), false)
  | .zeroPageX zp => (.addr (zext16 (zp + s.x)), false)
  | .zeroPageY zp => (.addr (zext16 (zp + s.y)), false)
  | .absolute addr => (.addr addr, false)
  | .absoluteX addr => indexed addr s.x
  | .absoluteY addr => indexed addr s.y
  | .indirect ptr => (.addr (indirectWord s ptr), false)
  | .indirectX zp => (.addr (zeroPageWord s (zp + s.x)), false)
  | .indirectY zp => indexed (zeroPageWord s zp) s.y
  | .relative disp => branchTarget s.pc disp

/-- `ReadOperand(eo)` (R82). No legal opcode reads `None`: it has no value. -/
def readOperand (s : State) : EffectiveOperand → Option Byte
  | .imm v => some v
  | .addr ea => some (memRead s ea)
  | .acc => some s.a
  | .none => none

/-- `WriteOperand(eo, v)` (R82). No legal opcode writes `Imm` or `None`: it has no effect to give. -/
def writeOperand (s : State) (v : Byte) : EffectiveOperand → Option State
  | .addr ea => some (memWrite s ea v)
  | .acc => some (setA s v)
  | .imm _ => none
  | .none => none

/-- The `Execute` part of an instruction (R95): from the effective operand, the page-cross bit and
the state, the state after its effect and its report; none where the operand has no such access. -/
abbrev Body := EffectiveOperand → Bool → State → Option (State × Report)

/-- Run an instruction of mnemonic `op` with operand form `o` (R90 from `Resolve` on, R95-R97): resolve the
operand, apply the body, then advance PC and count the cycles by the opcode table's entry. A term
whose mnemonic has no such mode is no instruction and is refused by name. -/
def execute (op : Op) (o : Operand) (body : Body) (s : State) : Host.Outcome State Fault Refusal :=
  match rowOf op o.mode, body (resolve s o).1 (resolve s o).2 s with
  | some row, some (s', out) => .next (finish row (resolve s o).2 s.pc out s')
  | _, _ => .refused (.noSuchForm op o.mode)

/-- A body that cannot meet a missing operand access and reports nothing. -/
def plain (f : State → State) : Body := fun _ _ s => some (f s, {})

/-- A body that reads its operand once and reports nothing. -/
def withOperand (f : State → Byte → State) : Body :=
  fun eo _ s => (readOperand s eo).map fun m => (f s m, {})

end Sys2Proof.Machine
end

