-- ==== Sys2Proof/Machine/Arithmetic.lean ====
section
/-! DEFINITION. ADC and SBC (42_arithmetic.md). -/

namespace Sys2Proof.Machine

/-- Whether ADC and SBC work in decimal: `D == 1 and DECIMAL_ENABLED` (R124, R125). -/
def decimalMode (s : State) : Bool := s.flags.d && s.cfg.decimalEnabled

/-- Write a core's result: A, C, Z, V and N (R124, R125). -/
def setSum (s : State) (r : Sum) : State := setFlags (setA s r.r) (s.flags.ofSum r)

/-- The addition ADC performs (R124). -/
def adcSum (s : State) (m : Byte) : Sum :=
  if decimalMode s then addDec s.a m s.flags.c else addBin s.a m s.flags.c

/-- The subtraction SBC performs (R125). -/
def sbcSum (s : State) (m : Byte) : Sum :=
  if decimalMode s then subDec s.a m s.flags.c else subBin s.a m s.flags.c

/-- ADC (R124). -/
def execAdc (o : Operand) (s : State) : Host.Outcome State Fault Refusal :=
  execute .adc o (withOperand fun s m => setSum s (adcSum s m)) s

/-- SBC (R125). -/
def execSbc (o : Operand) (s : State) : Host.Outcome State Fault Refusal :=
  execute .sbc o (withOperand fun s m => setSum s (sbcSum s m)) s

end Sys2Proof.Machine
end

