-- ==== Sys2Proof/Machine/Branch.lean ====
section
/-! DEFINITION. The eight conditional branches (47_branch.md). -/

namespace Sys2Proof.Machine

/-- `Branch(cond)` (R170): when the condition holds, PC takes the target and the branch costs one
cycle more, two when the target lies in another page than the next instruction. No flag is written. -/
def branchIf (cond : Flags → Bool) : Body := fun eo pcross s =>
  match eo with
  | .addr target =>
    if cond s.flags then some (s, { nextPc := some target, extra := 1 + pcross.toNat })
    else some (s, {})
  | _ => none

/-- BCC (R171). -/
def execBcc (disp : Byte) (s : State) : Host.Outcome State Fault Refusal :=
  execute .bcc (.relative disp) (branchIf fun p => !p.c) s

/-- BCS (R172). -/
def execBcs (disp : Byte) (s : State) : Host.Outcome State Fault Refusal :=
  execute .bcs (.relative disp) (branchIf fun p => p.c) s

/-- BEQ (R173). -/
def execBeq (disp : Byte) (s : State) : Host.Outcome State Fault Refusal :=
  execute .beq (.relative disp) (branchIf fun p => p.z) s

/-- BNE (R174). -/
def execBne (disp : Byte) (s : State) : Host.Outcome State Fault Refusal :=
  execute .bne (.relative disp) (branchIf fun p => !p.z) s

/-- BMI (R175). -/
def execBmi (disp : Byte) (s : State) : Host.Outcome State Fault Refusal :=
  execute .bmi (.relative disp) (branchIf fun p => p.n) s

/-- BPL (R176). -/
def execBpl (disp : Byte) (s : State) : Host.Outcome State Fault Refusal :=
  execute .bpl (.relative disp) (branchIf fun p => !p.n) s

/-- BVC (R177). -/
def execBvc (disp : Byte) (s : State) : Host.Outcome State Fault Refusal :=
  execute .bvc (.relative disp) (branchIf fun p => !p.v) s

/-- BVS (R178). -/
def execBvs (disp : Byte) (s : State) : Host.Outcome State Fault Refusal :=
  execute .bvs (.relative disp) (branchIf fun p => p.v) s

end Sys2Proof.Machine
end

