-- ==== Sys2Proof/Machine/Compare.lean ====
section
/-! DEFINITION. CMP, CPX and CPY (46_compare.md). -/

namespace Sys2Proof.Machine

/-- Compare a register with the operand byte: C, Z and N only (R160). -/
def compareWith (reg : State → Byte) : Body :=
  withOperand fun s m => setFlags s (s.flags.compare (reg s) m)

/-- CMP (R161). -/
def execCmp (o : Operand) (s : State) : Host.Outcome State Fault Refusal :=
  execute .cmp o (compareWith State.a) s

/-- CPX (R162). -/
def execCpx (o : Operand) (s : State) : Host.Outcome State Fault Refusal :=
  execute .cpx o (compareWith State.x) s

/-- CPY (R163). -/
def execCpy (o : Operand) (s : State) : Host.Outcome State Fault Refusal :=
  execute .cpy o (compareWith State.y) s

end Sys2Proof.Machine
end

