-- ==== Sys2Proof/Machine/IncDec.lean ====
section
/-! DEFINITION. INC, DEC, INX, INY, DEX and DEY (45_inc_dec.md). None reads or writes C or V. -/

namespace Sys2Proof.Machine

/-- A read-modify-write of a memory byte that sets Z and N (R150, R151). -/
def modifyOperand (f : Byte → Byte) : Body := fun eo _ s =>
  (readOperand s eo).bind fun m =>
    (writeOperand s (f m) eo).map fun s' => (setNZ s' (f m), {})

/-- Write a register and set Z and N from the value written (R152-R155, R207-R211). -/
def setRegNZ (set : State → Byte → State) (v : State → Byte) : Body :=
  plain fun s => setNZ (set s (v s)) (v s)

/-- INC (R150). -/
def execInc (o : Operand) (s : State) : Host.Outcome State Fault Refusal :=
  execute .inc o (modifyOperand fun m => m + 1) s

/-- DEC (R151). -/
def execDec (o : Operand) (s : State) : Host.Outcome State Fault Refusal :=
  execute .dec o (modifyOperand fun m => m - 1) s

/-- INX (R152). -/
def execInx (s : State) : Host.Outcome State Fault Refusal :=
  execute .inx .implied (setRegNZ setX fun s => s.x + 1) s

/-- INY (R153). -/
def execIny (s : State) : Host.Outcome State Fault Refusal :=
  execute .iny .implied (setRegNZ setY fun s => s.y + 1) s

/-- DEX (R154). -/
def execDex (s : State) : Host.Outcome State Fault Refusal :=
  execute .dex .implied (setRegNZ setX fun s => s.x - 1) s

/-- DEY (R155). -/
def execDey (s : State) : Host.Outcome State Fault Refusal :=
  execute .dey .implied (setRegNZ setY fun s => s.y - 1) s

end Sys2Proof.Machine
end

