-- ==== Sys2Proof/Machine/JumpStack.lean ====
section
/-! DEFINITION. Jumps, subroutine calls, returns and stack operations (48_jump_stack.md). -/

namespace Sys2Proof.Machine

/-- Go to the effective address after a change of state that reads only PC and the stack (R180, R181). -/
def jumpTo (f : State → State) : Body := fun eo _ s =>
  match eo with
  | .addr ea => some (f s, { nextPc := some ea })
  | _ => none

/-- JMP (R180). -/
def execJmp (o : Operand) (s : State) : Host.Outcome State Fault Refusal :=
  execute .jmp o (jumpTo id) s

/-- JSR (R181): push the address of its own last byte, PC + 2, then jump. -/
def execJsr (target : Addr) (s : State) : Host.Outcome State Fault Refusal :=
  execute .jsr (.absolute target) (jumpTo fun s => push16 s (s.pc + 2)) s

/-- RTS (R182): pull the return address and go to the one after it. -/
def execRts (s : State) : Host.Outcome State Fault Refusal :=
  execute .rts .implied (fun _ _ s => some (afterPull16 s, { nextPc := some (pulled16 s + 1) })) s

/-- RTI (R183): pull the flags, then the address, used as pulled. -/
def execRti (s : State) : Host.Outcome State Fault Refusal :=
  execute .rti .implied
    (fun _ _ s => some (leaveInterrupt s, { nextPc := some (interruptReturn s) })) s

/-- PHA (R184). -/
def execPha (s : State) : Host.Outcome State Fault Refusal :=
  execute .pha .implied (plain fun s => push s s.a) s

/-- PHP (R185): the status byte with bits 5 and 4 set. -/
def execPhp (s : State) : Host.Outcome State Fault Refusal :=
  execute .php .implied (plain fun s => push s s.flags.pack) s

/-- PLA (R186). -/
def execPla (s : State) : Host.Outcome State Fault Refusal :=
  execute .pla .implied (plain fun s => setNZ (setA (afterPull s) (pulled s)) (pulled s)) s

/-- PLP (R187): the six flags; bits 5 and 4 are discarded. -/
def execPlp (s : State) : Host.Outcome State Fault Refusal :=
  execute .plp .implied (plain fun s => setFlags (afterPull s) (Flags.unpack (pulled s))) s

end Sys2Proof.Machine
end

