-- ==== Sys2Proof/Machine/LoadStore.lean ====
section
/-! DEFINITION. The load and store instructions (41_load_store.md). -/

namespace Sys2Proof.Machine

/-- A load (R110): the operand byte goes to the destination register, Z and N are set from it. -/
def loadInto (set : State → Byte → State) : Body := withOperand fun s m => setNZ (set s m) m

/-- A store (R110): the source register goes to the operand; nothing is read and no flag changes. -/
def storeFrom (reg : State → Byte) : Body :=
  fun eo _ s => (writeOperand s (reg s) eo).map fun s' => (s', {})

/-- LDA (R111). -/
def execLda (o : Operand) (s : State) : Host.Outcome State Fault Refusal :=
  execute .lda o (loadInto setA) s

/-- LDX (R112). -/
def execLdx (o : Operand) (s : State) : Host.Outcome State Fault Refusal :=
  execute .ldx o (loadInto setX) s

/-- LDY (R113). -/
def execLdy (o : Operand) (s : State) : Host.Outcome State Fault Refusal :=
  execute .ldy o (loadInto setY) s

/-- STA (R114). -/
def execSta (o : Operand) (s : State) : Host.Outcome State Fault Refusal :=
  execute .sta o (storeFrom State.a) s

/-- STX (R115). -/
def execStx (o : Operand) (s : State) : Host.Outcome State Fault Refusal :=
  execute .stx o (storeFrom State.x) s

/-- STY (R116). -/
def execSty (o : Operand) (s : State) : Host.Outcome State Fault Refusal :=
  execute .sty o (storeFrom State.y) s

end Sys2Proof.Machine
end

