-- ==== Sys2Proof/Machine/Logical.lean ====
section
/-! DEFINITION. AND, ORA, EOR and BIT (43_logical.md). -/

namespace Sys2Proof.Machine

/-- Combine A with the operand byte, write A, set Z and N from it (R130-R132). -/
def combine (f : Byte → Byte → Byte) : Body :=
  withOperand fun s m => setNZ (setA s (f s.a m)) (f s.a m)

/-- The flags BIT writes: Z from A & m, N and V from bits 7 and 6 of m (R133). -/
def bitFlags (s : State) (m : Byte) : Flags :=
  { s.flags with z := (s.a &&& m) == 0#8, n := m.getLsbD 7, v := m.getLsbD 6 }

/-- AND (R130). -/
def execAnd (o : Operand) (s : State) : Host.Outcome State Fault Refusal :=
  execute .and o (combine fun a m => a &&& m) s

/-- ORA (R131). -/
def execOra (o : Operand) (s : State) : Host.Outcome State Fault Refusal :=
  execute .ora o (combine fun a m => a ||| m) s

/-- EOR (R132). -/
def execEor (o : Operand) (s : State) : Host.Outcome State Fault Refusal :=
  execute .eor o (combine fun a m => a ^^^ m) s

/-- BIT (R133): A and memory are unchanged. -/
def execBit (o : Operand) (s : State) : Host.Outcome State Fault Refusal :=
  execute .bit o (withOperand fun s m => setFlags s (bitFlags s m)) s

end Sys2Proof.Machine
end

