-- ==== Sys2Proof/Machine/Misc.lean ====
section
/-! DEFINITION. Flag sets and clears, register transfers, NOP, BRK (49_flags_transfer_misc.md) and
the illegal slots (60_exceptions.md R231). -/

namespace Sys2Proof.Machine

/-- Set a single flag to a literal value; no other effect (R200-R206). -/
def changeFlags (f : Flags → Flags) : Body := plain fun s => setFlags s (f s.flags)

/-- Copy a register into another and set Z and N from the value (R207-R211). -/
def transfer (src : State → Byte) (set : State → Byte → State) : Body :=
  plain fun s => setNZ (set s (src s)) (src s)

/-- CLC (R200). -/
def execClc (s : State) : Host.Outcome State Fault Refusal :=
  execute .clc .implied (changeFlags fun p => { p with c := false }) s

/-- SEC (R201). -/
def execSec (s : State) : Host.Outcome State Fault Refusal :=
  execute .sec .implied (changeFlags fun p => { p with c := true }) s

/-- CLD (R202). -/
def execCld (s : State) : Host.Outcome State Fault Refusal :=
  execute .cld .implied (changeFlags fun p => { p with d := false }) s

/-- SED (R203). -/
def execSed (s : State) : Host.Outcome State Fault Refusal :=
  execute .sed .implied (changeFlags fun p => { p with d := true }) s

/-- CLI (R204). -/
def execCli (s : State) : Host.Outcome State Fault Refusal :=
  execute .cli .implied (changeFlags fun p => { p with i := false }) s

/-- SEI (R205). -/
def execSei (s : State) : Host.Outcome State Fault Refusal :=
  execute .sei .implied (changeFlags fun p => { p with i := true }) s

/-- CLV (R206). -/
def execClv (s : State) : Host.Outcome State Fault Refusal :=
  execute .clv .implied (changeFlags fun p => { p with v := false }) s

/-- TAX (R207). -/
def execTax (s : State) : Host.Outcome State Fault Refusal :=
  execute .tax .implied (transfer State.a setX) s

/-- TXA (R208). -/
def execTxa (s : State) : Host.Outcome State Fault Refusal :=
  execute .txa .implied (transfer State.x setA) s

/-- TAY (R209). -/
def execTay (s : State) : Host.Outcome State Fault Refusal :=
  execute .tay .implied (transfer State.a setY) s

/-- TYA (R210). -/
def execTya (s : State) : Host.Outcome State Fault Refusal :=
  execute .tya .implied (transfer State.y setA) s

/-- TSX (R211). -/
def execTsx (s : State) : Host.Outcome State Fault Refusal :=
  execute .tsx .implied (transfer State.sp setX) s

/-- TXS (R212): the one transfer that writes no flag. -/
def execTxs (s : State) : Host.Outcome State Fault Refusal :=
  execute .txs .implied (plain fun s => setSp s s.x) s

/-- NOP (R213). -/
def execNop (s : State) : Host.Outcome State Fault Refusal :=
  execute .nop .implied (plain fun s => s) s

/-- BRK (R214): the break entry, then the vector or the halt. -/
def execBrk (s : State) : Host.Outcome State Fault Refusal :=
  execute .brk .implied (fun _ _ s => some (enterBreak s, breakReport s.pc (enterBreak s))) s

/-- ILLEGAL (R231): the IllegalOpcode fault, which halts the core where it is. A term whose byte is a
legal opcode is no instruction and is refused by name. -/
def execIllegal (raw : Byte) (s : State) : Host.Outcome State Fault Refusal :=
  if (opcodeRow raw).op = .illegal then .next (raiseIllegalOpcode s raw)
  else .refused (.noSuchForm .illegal .implied)

end Sys2Proof.Machine
end

