-- ==== Sys2Proof/Machine/Shift.lean ====
section
/-! DEFINITION. ASL, LSR, ROL and ROR (44_shift_rotate.md). -/

namespace Sys2Proof.Machine

/-- A read-modify-write that also sets C (R140): read the operand, write the result back to the same
place, then C, then Z and N. `f` gives the result and the bit shifted out, from the old C and the
operand byte. -/
def shiftOperand (f : Bool → Byte → Byte × Bool) : Body := fun eo _ s =>
  (readOperand s eo).bind fun m =>
    (writeOperand s (f s.flags.c m).1 eo).map fun s' =>
      (setNZ (setFlags s' { s'.flags with c := (f s.flags.c m).2 }) (f s.flags.c m).1, {})

/-- The operand shifted left, 0 entering at bit 0, bit 7 leaving (R141). -/
def aslByte (_ : Bool) (m : Byte) : Byte × Bool := (m <<< 1, m.getLsbD 7)

/-- The operand shifted right, 0 entering at bit 7, bit 0 leaving (R142). -/
def lsrByte (_ : Bool) (m : Byte) : Byte × Bool := (m >>> 1, m.getLsbD 0)

/-- A flag as a byte, in bit 0. -/
def bitByte (c : Bool) : Byte := (BitVec.ofBool c).setWidth 8

/-- The operand rotated left, the old C entering at bit 0 (R143). -/
def rolByte (c : Bool) (m : Byte) : Byte × Bool := ((m <<< 1) ||| bitByte c, m.getLsbD 7)

/-- The operand rotated right, the old C entering at bit 7 (R144). -/
def rorByte (c : Bool) (m : Byte) : Byte × Bool := ((m >>> 1) ||| (bitByte c <<< 7), m.getLsbD 0)

/-- ASL (R141). -/
def execAsl (o : Operand) (s : State) : Host.Outcome State Fault Refusal :=
  execute .asl o (shiftOperand aslByte) s

/-- LSR (R142). -/
def execLsr (o : Operand) (s : State) : Host.Outcome State Fault Refusal :=
  execute .lsr o (shiftOperand lsrByte) s

/-- ROL (R143). -/
def execRol (o : Operand) (s : State) : Host.Outcome State Fault Refusal :=
  execute .rol o (shiftOperand rolByte) s

/-- ROR (R144). -/
def execRor (o : Operand) (s : State) : Host.Outcome State Fault Refusal :=
  execute .ror o (shiftOperand rorByte) s

end Sys2Proof.Machine
end

