-- ==== Sys2Proof/Machine/Step.lean ====
section
/-! DEFINITION. The one transition of the block (40_execution_cycle.md R90). -/

namespace Sys2Proof.Machine

/-- `Step()` (R90): a halted core stays as it is (R91); otherwise fetch, decode and execute. `exec`
holds the rest of the transition: resolving, the effect, the PC and cycle accounting, and the halt. -/
def step (s : State) : Host.Outcome State Fault Refusal :=
  if s.halted then .next s else exec (fetch s) s

/-- `s` with the instruction whose bits are `w` stored at PC, so that the next step runs exactly it:
its three bytes are written and, because a halted core fetches nothing, the halt is cleared
(assumption log 5). -/
def State.withFetchWord (s : State) (nbits w : Nat) : State :=
  let s1 := memWrite s s.pc (tableByte nbits w 0)
  let s2 := memWrite s1 (s.pc + 1) (tableByte nbits w 1)
  let s3 := memWrite s2 (s.pc + 2) (tableByte nbits w 2)
  { s3 with halted := false, haltReason := none }

end Sys2Proof.Machine
end

