-- ==== Sys2Proof/Assembly.lean ====
section
/-! DEFINITION. The assembler syntax of every mode (30_encoding.md R69). No rule of the machine
depends on it. -/

namespace Sys2Proof

/-- The mnemonic as the source writes it (R66). -/
def Op.name : Op → String
  | .lda => "LDA" | .ldx => "LDX" | .ldy => "LDY" | .sta => "STA" | .stx => "STX" | .sty => "STY"
  | .adc => "ADC" | .sbc => "SBC"
  | .and => "AND" | .ora => "ORA" | .eor => "EOR" | .bit => "BIT"
  | .asl => "ASL" | .lsr => "LSR" | .rol => "ROL" | .ror => "ROR"
  | .inc => "INC" | .dec => "DEC" | .inx => "INX" | .iny => "INY" | .dex => "DEX" | .dey => "DEY"
  | .cmp => "CMP" | .cpx => "CPX" | .cpy => "CPY"
  | .bcc => "BCC" | .bcs => "BCS" | .beq => "BEQ" | .bne => "BNE"
  | .bmi => "BMI" | .bpl => "BPL" | .bvc => "BVC" | .bvs => "BVS"
  | .jmp => "JMP" | .jsr => "JSR" | .rts => "RTS" | .rti => "RTI"
  | .pha => "PHA" | .php => "PHP" | .pla => "PLA" | .plp => "PLP"
  | .clc => "CLC" | .sec => "SEC" | .cld => "CLD" | .sed => "SED"
  | .cli => "CLI" | .sei => "SEI" | .clv => "CLV"
  | .tax => "TAX" | .txa => "TXA" | .tay => "TAY" | .tya => "TYA" | .tsx => "TSX" | .txs => "TXS"
  | .nop => "NOP" | .brk => "BRK"
  | .illegal => "ILLEGAL"

/-- One hexadecimal digit. -/
def hexDigit (n : Nat) : Char := if n < 10 then Char.ofNat (48 + n) else Char.ofNat (55 + n)

/-- `$nn`. -/
def hexByte (b : Byte) : String := String.ofList ['$', hexDigit (b.toNat / 16), hexDigit (b.toNat % 16)]

/-- `$nnnn`. -/
def hexAddr (w : Addr) : String :=
  String.ofList ['$', hexDigit (w.toNat / 4096), hexDigit (w.toNat / 256 % 16),
    hexDigit (w.toNat / 16 % 16), hexDigit (w.toNat % 16)]

/-- `*+d` or `*-d`: the branch target as an offset from the branch itself, d being the displacement
plus the branch's two bytes (R69, R77). -/
def hereOffset (disp : Byte) : String :=
  if disp.toInt + 2 < 0 then "*-" ++ toString (-(disp.toInt + 2)).toNat
  else "*+" ++ toString (disp.toInt + 2).toNat

/-- The operand part of R69's syntax table. -/
def Operand.text : Operand → String
  | .implied => ""
  | .accumulator => " A"
  | .immediate value => " #" ++ hexByte value
  | .zeroPage zp => " " ++ hexByte zp
  | .zeroPageX zp => " " ++ hexByte zp ++ ",X"
  | .zeroPageY zp => " " ++ hexByte zp ++ ",Y"
  | .absolute addr => " " ++ hexAddr addr
  | .absoluteX addr => " " ++ hexAddr addr ++ ",X"
  | .absoluteY addr => " " ++ hexAddr addr ++ ",Y"
  | .indirect ptr => " (" ++ hexAddr ptr ++ ")"
  | .indirectX zp => " (" ++ hexByte zp ++ ",X)"
  | .indirectY zp => " (" ++ hexByte zp ++ "),Y"
  | .relative disp => " " ++ hereOffset disp

/-- An instruction in the MOS assembler syntax of R69. -/
def Instr.text (i : Instr) : String := i.op.name ++ i.operand.text

end Sys2Proof
end

