-- ==== Sys2Proof/Machine/Driver.lean ====
section
/-! DEFINITION. What the driver can do to the machine and see of it: the step's result
(40_execution_cycle.md R92), host writes between steps (20_memory.md R58), a run of steps and host
writes up to its end (R100), and the construction of
the machine before the first step (70_reset_and_hazards.md R260, R262). -/

namespace Sys2Proof.Machine

/-- The state an outcome gives, if it gives one. -/
def nextOf : Host.Outcome State Fault Refusal → Option State
  | .next t => some t
  | .fault _ => none
  | .refused _ => none

/-- The result of a step from `s` to `t` (R92): the recorded halt reason if the core is halted after
it, and the cycles this step consumed. -/
def resultOf (s t : State) : StepResult :=
  match t.haltReason with
  | some reason => .halt reason (t.cycles - s.cycles)
  | none => .executed (t.cycles - s.cycles)

/-- What a call of `step` returns to the driver (R92). -/
def stepResult (s : State) : Option StepResult := (nextOf (step s)).map (resultOf s)

/-- `HostWrite(addr, v)`: the driver's write between two steps (R58). -/
def hostWrite (s : State) (addr : Addr) (v : Byte) : State := memWrite s addr v

/-- Host writes in the order of the list. -/
def hostWrites : State → List (Addr × Byte) → State
  | s, [] => s
  | s, (addr, v) :: rest => hostWrites (hostWrite s addr v) rest

/-- The driver's run (R100): for each entry of the list the host writes it names, then one step. The
list's length is the number of steps the driver chose. The run ends there, or at the first halted
state, at which nothing more is written or stepped. -/
def drive : List (List (Addr × Byte)) → State → Option State
  | [], s => some s
  | ws :: rest, s =>
    if s.halted then some s else (nextOf (step (hostWrites s ws))).bind (drive rest)

/-- `load(bytes, base)`: byte k goes to `(base + k) mod 2^16`, in the order of the list, so a later
byte of an image longer than the address space overwrites an earlier one (R40, R262). -/
def load : Memory → List Byte → Addr → Memory
  | m, [], _ => m
  | m, v :: rest, base => load (Memory.write m base.toNat v) rest (base + 1)

/-- MEMORY_INIT as a function of the address (R9, R41), in the memory's canonical form. -/
def memoryOf (init : Addr → Byte) : Memory :=
  (List.range 65536).filterMap fun a =>
    if init (BitVec.ofNat 16 a) = Memory.unlisted then none else some (a, init (BitVec.ofNat 16 a))

/-- The machine before its first step (R260, R262): MEMORY_INIT with the cart image loaded at
CART_BASE, registers and flags at RESET_VALUES. CART_BASE has no default: it is OPEN (R9). -/
def boot (rv : ResetValues) (cfg : Config) (init : Addr → Byte) (image : List Byte)
    (cartBase : Addr) : State :=
  State.resetWith rv cfg (load (memoryOf init) image cartBase)

end Sys2Proof.Machine
end

