-- ==== Sys2Proof/Safety.lean ====
section
/-! DEFINITION. The terms in which claims about the machine are written: the state invariant, runs of
the driver, the "Encoding" entry of an instruction rule, and the tables of 10_state.md R26 and
20_memory.md R48 that say which instructions write what. -/

namespace Sys2Proof.Machine

/-! ### Invariant and runs -/

/-- Memory is in its canonical form, and a halt reason is recorded exactly when the core is halted
(R30). -/
def Inv (s : State) : Prop := s.mem.wf = true ∧ s.halted = s.haltReason.isSome

/-- A run goes on from its state `t`, reached after `n` steps, while the core is not halted and the
driver's bound is not reached: it ends at the first state whose `halted` is true, or after the number of
steps the driver chose, whichever comes first (R100). -/
def GoesOn (bound n : Nat) (t : State) : Prop := n < bound ∧ t.halted = false

/-- `Run bound s n t`: a run from `s`, of a driver that chose `bound` steps, has reached `t` after `n`
of them. While it goes on it takes steps, and host writes between them (R100, R58). -/
inductive Run (bound : Nat) (s : State) : Nat → State → Prop where
  | start : Run bound s 0 s
  | step {n : Nat} {t u : State} (h : Run bound s n t) (g : GoesOn bound n t)
      (e : Machine.step t = .next u) : Run bound s (n + 1) u
  | hostWrite {n : Nat} {t : State} (h : Run bound s n t) (g : GoesOn bound n t) (addr : Addr)
      (v : Byte) : Run bound s n (Machine.hostWrite t addr v)

/-! ### The "Encoding" entry of an instruction rule (R102) -/

/-- `opcode mode size/base-cycles`, with `+p` as `pen`. -/
structure Form where
  opcode : Byte
  mode : Mode
  size : Nat
  cycles : Nat
  pen : Bool
  deriving DecidableEq, Repr

/-- `t` with the PC moved past an instruction of form `f` that started in `s`, and its cycles counted:
the base count and, where the form is marked `+p`, one more on a page cross (R96, R97). -/
def past (f : Form) (cross : Bool) (s t : State) : State :=
  { t with
    pc := s.pc + BitVec.ofNat 16 f.size
    cycles := s.cycles + f.cycles + (if f.pen && cross then 1 else 0) }

/-- The instruction has the bytes the form says: the opcode, then its operand bytes, `size` in all. -/
def Form.encodes (f : Form) (i : Instr) : Prop :=
  encode i = f.opcode :: i.operand.bytes ∧ (encode i).length = f.size

/-- The eight read forms of LDA, ADC, SBC, AND, ORA, EOR and CMP, in the order of their rules:
(zp,X), zp, #, abs, (zp),Y, zp,X, abs,Y, abs,X. `base` is the opcode of the (zp,X) form. -/
def readForms (izx zp imm abs izy zpx aby abx : Byte) : List Form := [
  ⟨izx, .indirectX, 2, 6, false⟩, ⟨zp, .zeroPage, 2, 3, false⟩, ⟨imm, .immediate, 2, 2, false⟩,
  ⟨abs, .absolute, 3, 4, false⟩, ⟨izy, .indirectY, 2, 5, true⟩, ⟨zpx, .zeroPageX, 2, 4, false⟩,
  ⟨aby, .absoluteY, 3, 4, true⟩, ⟨abx, .absoluteX, 3, 4, true⟩]

/-- The four memory forms of the read-modify-write instructions: zp, abs, zp,X, abs,X. -/
def modifyForms (zp abs zpx abx : Byte) : List Form := [
  ⟨zp, .zeroPage, 2, 5, false⟩, ⟨abs, .absolute, 3, 6, false⟩,
  ⟨zpx, .zeroPageX, 2, 6, false⟩, ⟨abx, .absoluteX, 3, 7, false⟩]

/-- A one-byte form. -/
def oneByte (opcode : Byte) (mode : Mode) (cycles : Nat) : Form := ⟨opcode, mode, 1, cycles, false⟩

/-! ### The opcode at PC, and what it writes -/

/-- The table entry of the opcode byte at PC. -/
def currentRow (s : State) : OpcodeRow := opcodeRow (memRead s s.pc)

/-- The condition each branch tests (R171-R178); none for an instruction that is no branch. -/
def branchCondition (p : Flags) : Op → Option Bool
  | .bcc => some (!p.c)
  | .bcs => some p.c
  | .beq => some p.z
  | .bne => some (!p.z)
  | .bmi => some p.n
  | .bpl => some (!p.n)
  | .bvc => some (!p.v)
  | .bvs => some p.v
  | _ => none

/-- Whether the instruction of this mnemonic assigns PC in this state (R96): JMP, JSR, RTS, RTI, a
taken branch, BRK in `Vector` mode. -/
def assignsPc (s : State) (op : Op) : Bool :=
  [Op.jmp, .jsr, .rts, .rti].contains op || branchCondition s.flags op == some true ||
    (op == .brk && s.cfg.brkMode == .vector)

/-- The writers of C (R26). -/
def carryWriters : List Op :=
  [.adc, .sbc, .asl, .lsr, .rol, .ror, .cmp, .cpx, .cpy, .clc, .sec, .plp, .rti]

/-- The writers of Z and of N (R26). -/
def zeroNegativeWriters : List Op :=
  [.adc, .sbc, .and, .ora, .eor, .bit, .asl, .lsr, .rol, .ror, .inc, .dec, .inx, .iny, .dex, .dey,
    .cmp, .cpx, .cpy, .lda, .ldx, .ldy, .pla, .plp, .rti, .tax, .txa, .tay, .tya, .tsx]

/-- The writers of I (R26). -/
def interruptWriters : List Op := [.cli, .sei, .brk, .plp, .rti]

/-- The writers of D (R26). -/
def decimalWriters : List Op := [.cld, .sed, .plp, .rti]

/-- The writers of V (R26). -/
def overflowWriters : List Op := [.adc, .sbc, .bit, .clv, .plp, .rti]

/-- The writers of A (R21). The four shifts write it in Accumulator mode only. -/
def accumulatorWriters : List Op := [.lda, .adc, .sbc, .and, .ora, .eor, .pla, .txa, .tya]

/-- The writers of A in Accumulator mode (R21). -/
def shifts : List Op := [.asl, .lsr, .rol, .ror]

/-- The writers of X (R22). -/
def xWriters : List Op := [.ldx, .inx, .dex, .tax, .tsx]

/-- The writers of Y (R23). -/
def yWriters : List Op := [.ldy, .iny, .dey, .tay]

/-- The instructions that change SP (R24). -/
def spWriters : List Op := [.pha, .php, .pla, .plp, .jsr, .rts, .rti, .brk, .txs]

/-- The instructions that write one byte at their effective address (R48). -/
def operandWriters : List Op :=
  [.sta, .stx, .sty, .asl, .lsr, .rol, .ror, .inc, .dec]

/-- The addresses of the next `n` pushes, in the order they are made (R52). -/
def pushAddrs : Nat → State → List Addr
  | 0, _ => []
  | n + 1, s => pushAddr s :: pushAddrs n (setSp s (s.sp - 1))

/-- The addresses an instruction stores to (the writes column of R48). -/
def storedAddrs (s : State) (i : Instr) : List Addr :=
  if operandWriters.contains i.op then
    match (resolve s i.operand).1 with
    | .addr ea => [ea]
    | _ => []
  else if [Op.pha, .php].contains i.op then pushAddrs 1 s
  else if i.op = .jsr then pushAddrs 2 s
  else if i.op = .brk then pushAddrs 3 s
  else []

/-! ### The stack and the status byte, in numbers -/

/-- The address of the `k`-th byte pushed from `s`, counting from 0: below SP in the order
`DecThenWrite`, from SP on in the order `WriteThenDec`, modulo 256 in the stack page (R51, R52). -/
def pushSlot (s : State) (k : Nat) : Addr :=
  match s.cfg.stackOrder with
  | .decThenWrite => BitVec.ofNat 16 (0x100 + (s.sp - BitVec.ofNat 8 (k + 1)).toNat)
  | .writeThenDec => BitVec.ofNat 16 (0x100 + (s.sp - BitVec.ofNat 8 k).toNat)

/-- The address of the `k`-th byte pulled from `s`, counting from 0 (R51, R53). -/
def pullSlot (s : State) (k : Nat) : Addr :=
  match s.cfg.stackOrder with
  | .decThenWrite => BitVec.ofNat 16 (0x100 + (s.sp + BitVec.ofNat 8 k).toNat)
  | .writeThenDec => BitVec.ofNat 16 (0x100 + (s.sp + BitVec.ofNat 8 (k + 1)).toNat)

/-- The status byte as a sum: N 128, V 64, bits 5 and 4 always 1, D 8, I 4, Z 2, C 1 (R27). -/
def statusByte (p : Flags) : Byte :=
  BitVec.ofNat 8 (128 * p.n.toNat + 64 * p.v.toNat + 0x30 + 8 * p.d.toNat + 4 * p.i.toNat +
    2 * p.z.toNat + p.c.toNat)

/-- A byte that is two decimal digits. -/
def isBcd (b : Byte) : Bool := decide (b.toNat / 16 < 10) && decide (b.toNat % 16 < 10)

/-- The number two decimal digits stand for. -/
def bcdValue (b : Byte) : Nat := 10 * (b.toNat / 16) + b.toNat % 16

/-- Z and N of a result byte (R13). -/
def flagsNZ (p : Flags) (v : Byte) : Flags := { p with z := decide (v = 0#8), n := decide (v.toNat ≥ 128) }

/-! ### The shapes of the instruction rules -/

/-- The modes an operand-taking instruction has: these and no other. -/
def HasModes (mk : Operand → Instr) (modes : List Mode) : Prop :=
  ∀ o : Operand, (mk o).wellFormed = true ↔ o.mode ∈ modes

/-- An instruction that reads one operand byte `m` and gives the state `result s m`, in each of its
forms: it has the form's bytes, and from every state it answers that state, past the instruction. It
has no other form. -/
def ReadsOperand (mk : Operand → Instr) (forms : List Form) (result : State → Byte → State) : Prop :=
  HasModes mk (forms.map Form.mode) ∧
    ∀ f ∈ forms, ∀ o : Operand, o.mode = f.mode → f.encodes (mk o) ∧
    ∀ s : State, ∃ m, readOperand s (resolve s o).1 = some m ∧
      exec (mk o) s = .next (past f (resolve s o).2 s (result s m))

/-- An instruction that stores `value s` at its effective address and changes no register and no
flag, in each of its forms. It has no other form. -/
def StoresRegister (mk : Operand → Instr) (forms : List Form) (value : State → Byte) : Prop :=
  HasModes mk (forms.map Form.mode) ∧
    ∀ f ∈ forms, ∀ o : Operand, o.mode = f.mode → f.encodes (mk o) ∧
    ∀ s : State, ∃ ea t, (resolve s o).1 = .addr ea ∧ exec (mk o) s = .next t ∧
      t = past f (resolve s o).2 s { s with mem := t.mem } ∧
      ∀ b, memRead t b = if b = ea then value s else memRead s b

/-- A read-modify-write of the byte `m` at the effective address, in each of its memory forms: the
byte becomes `r s m`, the flags `p s m`, and nothing else changes. -/
def ModifiesMemory (mk : Operand → Instr) (forms : List Form) (r : State → Byte → Byte)
    (p : State → Byte → Flags) : Prop :=
  ∀ f ∈ forms, ∀ o : Operand, o.mode = f.mode → f.encodes (mk o) ∧
    ∀ s : State, ∃ ea t, (resolve s o).1 = .addr ea ∧ exec (mk o) s = .next t ∧
      t = past f (resolve s o).2 s { s with mem := t.mem, flags := p s (memRead s ea) } ∧
      ∀ b, memRead t b = if b = ea then r s (memRead s ea) else memRead s b

/-- A one-byte instruction with the opcode and cycles given: from every state it answers the state
`result s`, past the instruction. -/
def OneByte (i : Instr) (opcode : Byte) (cycles : Nat) (result : State → State) : Prop :=
  encode i = [opcode] ∧
    ∀ s : State, exec i s = .next (past (oneByte opcode i.mode cycles) false s (result s))

/-- The flags after a shift or rotate (R140): C is the bit shifted out, Z and N are the result's. -/
def shiftFlags (out : Byte → Bool) (r : Bool → Byte → Byte) (s : State) (m : Byte) : Flags :=
  { flagsNZ s.flags (r s.flags.c m) with c := out m }

/-- A shift or rotate in its Accumulator form and its memory forms, and in no other (R140). -/
def Shifts (mk : Operand → Instr) (acc : Byte) (forms : List Form) (r : Bool → Byte → Byte)
    (out : Byte → Bool) : Prop :=
  HasModes mk (.accumulator :: forms.map Form.mode) ∧
    OneByte (mk .accumulator) acc 2
        (fun s => { s with a := r s.flags.c s.a, flags := shiftFlags out r s s.a }) ∧
    ModifiesMemory mk forms (fun s m => r s.flags.c m) (shiftFlags out r)

/-- The flags after a compare, in numbers: C when the register is at least the operand, Z when they
are equal, N bit 7 of the difference modulo 256 (R160). -/
def compareFlags (p : Flags) (reg m : Byte) : Flags :=
  { p with
    c := decide (m.toNat ≤ reg.toNat)
    z := decide (reg = m)
    n := decide ((reg.toNat + 256 - m.toNat) % 256 ≥ 128) }

end Sys2Proof.Machine
end

