-- ==== Sys2Proof/Certificates/Slice0/Obligations.lean ====
section
/-! DEFINITION. The statements for the provers. Each formalises rules of spec/ or is derived from
them; OBLIGATIONS.json says which. -/

open Sys2Proof Sys2Proof.Machine

/-! ### Encoding -/

/-- Decoding the bytes of any well-formed instruction, whatever follows them, gives it back with the
rest of the bytes (30_encoding.md, every operand at every value). -/
def Obligations.DecodeOfEncodeIsTheInstruction : Prop :=
  ∀ (i : Instr) (rest : List Byte), i.wellFormed = true →
    decodeBytes (encode i ++ rest) = .ok (i, rest)

/-- Any three bytes decode to a well-formed instruction whose bytes are the first of them, as many as
the opcode's table size says. That an illegal slot, whose table size is 0, has the one byte of its
opcode is the model's DESIGN CHOICE (assumption log 13). -/
def Obligations.EveryFetchDecodesToItsOwnBytes : Prop :=
  ∀ b0 b1 b2 : Byte, (decode b0 b1 b2).wellFormed = true ∧
    encode (decode b0 b1 b2) <+: [b0, b1, b2] ∧
    (encode (decode b0 b1 b2)).length = max 1 (opcodeRow b0).size

/-- A few words written out from the spec's encodings (R69's table and the source's examples),
whatever the bytes after them are. -/
def Obligations.SpecWordsDecodeAsWritten : Prop :=
  ∀ x y : Byte,
    decode 0xA9#8 0x05#8 y = .lda (.immediate 0x05#8) ∧
    decode 0x8D#8 0x00#8 0x02#8 = .sta (.absolute 0x0200#16) ∧
    decode 0x6C#8 0xFF#8 0x02#8 = .jmp (.indirect 0x02FF#16) ∧
    decode 0xF0#8 0x02#8 y = .beq 0x02#8 ∧
    decode 0x0A#8 x y = .asl .accumulator ∧
    decode 0x02#8 x y = .illegal 0x02#8

/-- The opcode table: 256 entries, 151 of them legal, every mnemonic in it; size 0 exactly at the
illegal bytes of R67, which all have the same entry. -/
def Obligations.OpcodeTableIsTotalAndConsistent : Prop :=
  opcodeTable.length = 256 ∧
  (opcodeTable.filter fun r => r.op ≠ .illegal).length = 151 ∧
  (∀ op : Op, ∃ b : Byte, (opcodeRow b).op = op) ∧
  ∀ b : Byte, ((opcodeRow b).size = 0 ↔ b ∈ illegalBytes) ∧ (opcodeRow b).size ≤ 3 ∧
    ((opcodeRow b).op = .illegal → opcodeRow b = illegalRow)

/-- Which opcodes take one more cycle on a page cross (R80): never a store, a read-modify-write
instruction or a branch. -/
def Obligations.PageCrossPenaltyOpcodes : Prop :=
  ∀ b : Byte, (opcodeRow b).pen = true ↔
    ((opcodeRow b).op ∈ [Op.adc, .and, .cmp, .eor, .lda, .ora, .sbc] ∧
        (opcodeRow b).mode ∈ [Mode.absoluteX, .absoluteY, .indirectY]) ∨
      ((opcodeRow b).op = .ldx ∧ (opcodeRow b).mode = .absoluteY) ∨
      ((opcodeRow b).op = .ldy ∧ (opcodeRow b).mode = .absoluteX)

/-! ### Memory, reset and boot -/

/-- Two memories in canonical form that read the same everywhere are the same list. -/
def Obligations.CanonicalMemoriesAreEqualWhenTheyReadEqual : Prop :=
  ∀ m m' : Memory, m.wf = true → m'.wf = true →
    (∀ a, Memory.read m a = Memory.read m' a) → m = m'

/-- After boot, the last byte of the image loaded at an address is there, and every address the
image does not reach holds its MEMORY_INIT byte; addresses past 0xFFFF wrap (R40, R262, R41). -/
def Obligations.BootLoadsTheImageOverTheInitialMemory : Prop :=
  ∀ (rv : ResetValues) (cfg : Config) (init : Addr → Byte) (image : List Byte) (base : Addr),
    (∀ (k : Nat) (v : Byte), image[k]? = some v →
      (∀ j, k < j → j < image.length → base + BitVec.ofNat 16 j ≠ base + BitVec.ofNat 16 k) →
      memRead (boot rv cfg init image base) (base + BitVec.ofNat 16 k) = v) ∧
    ∀ a : Addr, (∀ k < image.length, a ≠ base + BitVec.ofNat 16 k) →
      memRead (boot rv cfg init image base) a = init a

/-- Reset gives every register and flag the caller's value, an unhalted core and a cycle count of 0
(R260), and the default reset gives 0 everywhere. -/
def Obligations.ResetGivesTheSuppliedValues : Prop :=
  (∀ (rv : ResetValues) (cfg : Config) (init : Addr → Byte) (image : List Byte) (base : Addr),
    ∃ m, boot rv cfg init image base =
      { pc := rv.pc, a := rv.a, x := rv.x, y := rv.y, sp := rv.sp
        flags := { c := rv.c, z := rv.z, i := rv.i, d := rv.d, v := rv.v, n := rv.n }
        halted := false, haltReason := none, cycles := 0, mem := m, cfg := cfg }) ∧
  State.reset.pc = 0#16 ∧ State.reset.a = 0#8 ∧ State.reset.x = 0#8 ∧ State.reset.y = 0#8 ∧
    State.reset.sp = 0#8 ∧
    State.reset.flags = { c := false, z := false, i := false, d := false, v := false, n := false } ∧
    State.reset.halted = false ∧ State.reset.haltReason = none ∧ State.reset.cycles = 0 ∧
    (∀ a, memRead State.reset a = 0#8) ∧
    State.reset.cfg = ⟨.decThenWrite, true, .halt, 0xFFFE#16⟩

/-- The invariant holds of the state after reset. -/
def Obligations.ResetMeetsTheInvariant : Prop := Inv State.reset

/-- The invariant holds of every booted machine. -/
def Obligations.BootMeetsTheInvariant : Prop :=
  ∀ (rv : ResetValues) (cfg : Config) (init : Addr → Byte) (image : List Byte) (base : Addr),
    Inv (boot rv cfg init image base)

/-! ### The step machine -/

/-- When the bytes at PC are those of a well-formed instruction and the core is not halted, the step
is that instruction's execution; `exec` already moves PC past the instruction, so the step adds
nothing around it. Bytes beyond the instruction's size play no part (R49, R90). -/
def Obligations.StepRunsTheInstructionAtPc : Prop :=
  ∀ (i : Instr) (s : State), i.wellFormed = true → s.halted = false →
    (∀ (k : Nat) (v : Byte), (encode i)[k]? = some v → memRead s (s.pc + BitVec.ofNat 16 k) = v) →
    step s = exec i s

/-- A step of a halted core changes nothing and reports the recorded reason with 0 cycles (R91). -/
def Obligations.HaltedStepIsANoOp : Prop :=
  ∀ s : State, s.halted = true → step s = .next s ∧
    ∀ r, s.haltReason = some r → stepResult s = some (.halt r 0)

/-- A step of a core that is not halted returns the cycles it added: with the recorded reason if it
halted the core, as an executed instruction otherwise (R92). -/
def Obligations.StepReturnsTheCyclesItAdded : Prop :=
  ∀ s : State, Inv s → s.halted = false → ∃ t n, step s = .next t ∧ t.cycles = s.cycles + n ∧
    (t.halted = false → stepResult s = some (.executed n)) ∧
    (t.halted = true → ∃ r, t.haltReason = some r ∧ stepResult s = some (.halt r n))

/-- From every state the step answers a next state (R90 to R95, R232). That an illegal opcode and a
step of a halted core are next states, not faults of the outcome, is the model's reading (assumption
log 7), and so is that the refusal of terms that are no instruction never meets a step (log 8). -/
def Obligations.EveryStepAnswersANextState : Prop := ∀ s : State, ∃ t, step s = .next t

/-- An instruction term has an effect in every state exactly when it is well-formed: every form of
every one of the 57 constructors completes, and no other term does. The spec has no other terms: that
the model refuses them is its DESIGN CHOICE (assumption log 8). -/
def Obligations.WellFormedInstructionsComplete : Prop :=
  ∀ (i : Instr) (s : State), i.wellFormed = true ↔ ∃ t, exec i s = .next t

/-- Every step keeps the invariant. -/
def Obligations.StepKeepsTheInvariant : Prop :=
  ∀ s t : State, Inv s → step s = .next t → Inv t

/-- Every run of a booted machine keeps the invariant, with host writes between its steps (R100, R58),
and keeps the run's parameters. -/
def Obligations.RunsOfBootedMachinesKeepTheInvariant : Prop :=
  ∀ (rv : ResetValues) (cfg : Config) (init : Addr → Byte) (image : List Byte) (base : Addr)
    (bound n : Nat) (t : State), Run bound (boot rv cfg init image base) n t → Inv t ∧ t.cfg = cfg

/-- A run ends at the first halted state or at the driver's bound (R100): from a halted state it takes
no step and no host write, it never takes more steps than the bound, and a driver with any host writes
before each of its steps comes to the end of such a run. -/
def Obligations.RunsEndAtTheFirstHaltOrTheBound : Prop :=
  (∀ (bound n : Nat) (s t : State), Run bound s n t → s.halted = true → n = 0 ∧ t = s) ∧
  (∀ (bound n : Nat) (s t : State), Run bound s n t → n ≤ bound) ∧
  ∀ (writes : List (List (Addr × Byte))) (s : State), ∃ n t, drive writes s = some t ∧
    Run writes.length s n t ∧ (t.halted = true ∨ n = writes.length)

/-- A host write stores its byte at its address: every other byte, every register and flag, the halt
fields, the cycle count and the parameters are unchanged (R58, R43). -/
def Obligations.HostWriteStoresOneByte : Prop :=
  ∀ (s : State) (a : Addr) (v : Byte),
    hostWrite s a v = { s with mem := (hostWrite s a v).mem } ∧
    ∀ b, memRead (hostWrite s a v) b = if b = a then v else memRead s b

/-- A fetched illegal opcode halts the core where it is: only the halt fields change, and the step
costs 0 cycles. The instruction itself does the same (R94, R231). -/
def Obligations.IllegalOpcodeHaltsInPlace : Prop :=
  (∀ s : State, s.halted = false → memRead s s.pc ∈ illegalBytes →
    step s = .next { s with
      halted := true, haltReason := some (.illegalOpcode s.pc (memRead s s.pc)) } ∧
    stepResult s = some (.halt (.illegalOpcode s.pc (memRead s s.pc)) 0)) ∧
  ∀ (raw : Byte) (s : State), raw ∈ illegalBytes →
    exec (.illegal raw) s =
      .next { s with halted := true, haltReason := some (.illegalOpcode s.pc raw) }

/-- The core becomes halted only by an illegal opcode or by BRK in `Halt` mode, with that reason
recorded, and nothing but a reset ends the halt (R30, R233). -/
def Obligations.OnlyIllegalOpcodesAndBrkHalt : Prop :=
  (∀ s t : State, s.halted = false → s.haltReason = none → step s = .next t →
    (memRead s s.pc ∈ illegalBytes ∧ t.halted = true ∧
        t.haltReason = some (.illegalOpcode s.pc (memRead s s.pc))) ∨
      (memRead s s.pc = 0x00#8 ∧ s.cfg.brkMode = .halt ∧ t.halted = true ∧
        t.haltReason = some (.brk s.pc)) ∨
      (memRead s s.pc ∉ illegalBytes ∧ ¬(memRead s s.pc = 0x00#8 ∧ s.cfg.brkMode = .halt) ∧
        t.halted = false ∧ t.haltReason = none)) ∧
  (∀ s t : State, s.halted = true → step s = .next t →
    t.halted = true ∧ t.haltReason = s.haltReason) ∧
  ∀ (s : State) (a : Addr) (v : Byte), (hostWrite s a v).halted = s.halted ∧
    (hostWrite s a v).haltReason = s.haltReason

/-- PC moves past the instruction unless the instruction assigns it: JMP, JSR, RTS, RTI, a taken
branch, BRK in `Vector` mode; an illegal opcode leaves it (R96, R94). -/
def Obligations.PcMovesPastInstructionsThatDoNotAssignIt : Prop :=
  ∀ (i : Instr) (s t : State), exec i s = .next t →
    (i.op = .illegal → t.pc = s.pc) ∧
    (i.op ≠ .illegal → assignsPc s i.op = false →
      t.pc = s.pc + BitVec.ofNat 16 (encode i).length)

/-- The cycles of an instruction: the table's base count, one more for a marked opcode on a page
cross, and for a taken branch one more, two on a page cross. No effect depends on the count (R97, R170). -/
def Obligations.CyclesAreBasePlusPenaltyPlusExtra : Prop :=
  ∀ (i : Instr) (s t : State) (row : OpcodeRow), exec i s = .next t →
    rowOf i.op i.mode = some row →
    t.cycles = s.cycles + row.cycles +
        (if row.pen = true ∧ (resolve s i.operand).2 = true then 1 else 0) +
        (if branchCondition s.flags i.op = some true then 1 + (resolve s i.operand).2.toNat else 0) ∧
    ∀ k, exec i { s with cycles := k } = .next { t with cycles := k + (t.cycles - s.cycles) }

/-! ### Whole-machine frames -/

/-- Each flag is written only by the instructions R26 lists for it. -/
def Obligations.FlagsChangeOnlyByTheirWriters : Prop :=
  ∀ (i : Instr) (s t : State), exec i s = .next t →
    (i.op ∉ carryWriters → t.flags.c = s.flags.c) ∧
    (i.op ∉ zeroNegativeWriters → t.flags.z = s.flags.z ∧ t.flags.n = s.flags.n) ∧
    (i.op ∉ interruptWriters → t.flags.i = s.flags.i) ∧
    (i.op ∉ decimalWriters → t.flags.d = s.flags.d) ∧
    (i.op ∉ overflowWriters → t.flags.v = s.flags.v)

/-- Each register is written only by the instructions R21 to R24 list for it; the shifts write A in
Accumulator mode only, the parameters never change. -/
def Obligations.RegistersChangeOnlyByTheirWriters : Prop :=
  ∀ (i : Instr) (s t : State), exec i s = .next t →
    (i.op ∉ accumulatorWriters → ¬(i.op ∈ shifts ∧ i.mode = .accumulator) → t.a = s.a) ∧
    (i.op ∉ xWriters → t.x = s.x) ∧
    (i.op ∉ yWriters → t.y = s.y) ∧
    (i.op ∉ spWriters → t.sp = s.sp) ∧
    t.cfg = s.cfg

/-- Memory changes only at the addresses R48 gives the instruction: its effective address, or the
next one, two or three stack bytes. Every other address reads as before. -/
def Obligations.MemoryChangesOnlyWhereTheInstructionStores : Prop :=
  ∀ (i : Instr) (s t : State), exec i s = .next t →
    ∀ b, b ∉ storedAddrs s i → memRead t b = memRead s b

/-- No behaviour depends on I but the byte PHP and BRK push (R236): with another value of I, any
other instruction gives the same next state, but for I itself where the instruction does not write it. -/
def Obligations.InterruptFlagAffectsNothingElse : Prop :=
  ∀ (i : Instr) (s t : State) (b : Bool), i.op ≠ .php → i.op ≠ .brk → exec i s = .next t →
    exec i { s with flags := { s.flags with i := b } } =
      .next { t with
        flags := { t.flags with i := if i.op ∈ interruptWriters then t.flags.i else b } }

/-! ### Addressing modes -/

/-- The modes without an index register's carry or a pointer: no operand, the accumulator, the literal
byte, a zero-page address that never leaves page 0, the 16-bit operand (R71, R72, R73, R74). -/
def Obligations.ZeroPageAndAbsoluteModesResolve : Prop :=
  ∀ s : State,
    resolve s .implied = (.none, false) ∧
    resolve s .accumulator = (.acc, false) ∧
    (∀ v, resolve s (.immediate v) = (.imm v, false)) ∧
    (∀ zp, resolve s (.zeroPage zp) = (.addr (BitVec.ofNat 16 zp.toNat), false)) ∧
    (∀ zp, resolve s (.zeroPageX zp) =
      (.addr (BitVec.ofNat 16 ((zp.toNat + s.x.toNat) % 256)), false)) ∧
    (∀ zp, resolve s (.zeroPageY zp) =
      (.addr (BitVec.ofNat 16 ((zp.toNat + s.y.toNat) % 256)), false)) ∧
    ∀ addr, resolve s (.absolute addr) = (.addr addr, false)

/-- Absolute indexed: the 16-bit operand plus the index modulo 2^16, with the page-cross bit set
exactly when the high byte changes (R75). -/
def Obligations.AbsoluteIndexedModesResolve : Prop :=
  ∀ (s : State) (base : Addr),
    (∃ ea : Addr, ea.toNat = (base.toNat + s.x.toNat) % 65536 ∧
      resolve s (.absoluteX base) = (.addr ea, decide (ea.toNat / 256 ≠ base.toNat / 256))) ∧
    ∃ ea : Addr, ea.toNat = (base.toNat + s.y.toNat) % 65536 ∧
      resolve s (.absoluteY base) = (.addr ea, decide (ea.toNat / 256 ≠ base.toNat / 256))

/-- Indirect: the word at the pointer, its high byte from the same page when the pointer's low byte
is 0xFF (R76). -/
def Obligations.IndirectModeKeepsThePointersPage : Prop :=
  ∀ (s : State) (ptr : Addr), ∃ ea : Addr,
    resolve s (.indirect ptr) = (.addr ea, false) ∧
    ea.toNat % 256 = (memRead s ptr).toNat ∧
    ea.toNat / 256 =
      (memRead s (BitVec.ofNat 16 (ptr.toNat / 256 * 256 + (ptr.toNat + 1) % 256))).toNat

/-- Zero-page pointers and branch targets: the pointer's two bytes both come from page 0; (zp),Y adds
Y with a page-cross bit; a branch target is measured from the next instruction (R77, R78, R79). -/
def Obligations.ZeroPagePointerAndRelativeModesResolve : Prop :=
  ∀ (s : State) (b : Byte),
    (∃ ea : Addr, resolve s (.indirectX b) = (.addr ea, false) ∧
      ea.toNat % 256 = (memRead s (BitVec.ofNat 16 ((b.toNat + s.x.toNat) % 256))).toNat ∧
      ea.toNat / 256 = (memRead s (BitVec.ofNat 16 ((b.toNat + s.x.toNat + 1) % 256))).toNat) ∧
    (∃ base ea : Addr,
      base.toNat % 256 = (memRead s (BitVec.ofNat 16 b.toNat)).toNat ∧
      base.toNat / 256 = (memRead s (BitVec.ofNat 16 ((b.toNat + 1) % 256))).toNat ∧
      ea.toNat = (base.toNat + s.y.toNat) % 65536 ∧
      resolve s (.indirectY b) = (.addr ea, decide (ea.toNat / 256 ≠ base.toNat / 256))) ∧
    ∃ target next : Addr, next.toNat = (s.pc.toNat + 2) % 65536 ∧
      (target.toNat : Int) = ((next.toNat : Int) + b.toInt) % 65536 ∧
      resolve s (.relative b) = (.addr target, decide (target.toNat / 256 ≠ next.toNat / 256))

/-! ### Load and store -/

/-- LDA, LDX and LDY write the operand byte to their register and set Z and N from it; no other flag,
register or byte of memory changes (R111, R112, R113). -/
def Obligations.LoadsWriteTheirRegister : Prop :=
  ReadsOperand .lda (readForms 0xA1#8 0xA5#8 0xA9#8 0xAD#8 0xB1#8 0xB5#8 0xB9#8 0xBD#8)
    (fun s m => { s with a := m, flags := flagsNZ s.flags m }) ∧
  ReadsOperand .ldx [⟨0xA2#8, .immediate, 2, 2, false⟩, ⟨0xA6#8, .zeroPage, 2, 3, false⟩,
      ⟨0xAE#8, .absolute, 3, 4, false⟩, ⟨0xB6#8, .zeroPageY, 2, 4, false⟩,
      ⟨0xBE#8, .absoluteY, 3, 4, true⟩]
    (fun s m => { s with x := m, flags := flagsNZ s.flags m }) ∧
  ReadsOperand .ldy [⟨0xA0#8, .immediate, 2, 2, false⟩, ⟨0xA4#8, .zeroPage, 2, 3, false⟩,
      ⟨0xAC#8, .absolute, 3, 4, false⟩, ⟨0xB4#8, .zeroPageX, 2, 4, false⟩,
      ⟨0xBC#8, .absoluteX, 3, 4, true⟩]
    (fun s m => { s with y := m, flags := flagsNZ s.flags m })

/-- STA, STX and STY write their register at the effective address; no flag, register or other byte
of memory changes, and no form adds the page-cross cycle (R114, R115, R116). -/
def Obligations.StoresWriteOneByte : Prop :=
  StoresRegister .sta [⟨0x81#8, .indirectX, 2, 6, false⟩, ⟨0x85#8, .zeroPage, 2, 3, false⟩,
      ⟨0x8D#8, .absolute, 3, 4, false⟩, ⟨0x91#8, .indirectY, 2, 6, false⟩,
      ⟨0x95#8, .zeroPageX, 2, 4, false⟩, ⟨0x99#8, .absoluteY, 3, 5, false⟩,
      ⟨0x9D#8, .absoluteX, 3, 5, false⟩] State.a ∧
  StoresRegister .stx [⟨0x86#8, .zeroPage, 2, 3, false⟩, ⟨0x8E#8, .absolute, 3, 4, false⟩,
      ⟨0x96#8, .zeroPageY, 2, 4, false⟩] State.x ∧
  StoresRegister .sty [⟨0x84#8, .zeroPage, 2, 3, false⟩, ⟨0x8C#8, .absolute, 3, 4, false⟩,
      ⟨0x94#8, .zeroPageX, 2, 4, false⟩] State.y

/-! ### Arithmetic -/

/-- ADC and SBC write A, C, Z, V and N from the decimal core when D is set and decimal mode is
enabled, from the binary core otherwise (R124, R125). -/
def Obligations.AdcAndSbcWriteTheSum : Prop :=
  ReadsOperand .adc (readForms 0x61#8 0x65#8 0x69#8 0x6D#8 0x71#8 0x75#8 0x79#8 0x7D#8)
    (fun s m =>
      let r := if s.flags.d = true ∧ s.cfg.decimalEnabled = true then addDec s.a m s.flags.c
        else addBin s.a m s.flags.c
      { s with a := r.r, flags := { s.flags with c := r.c, z := r.z, v := r.v, n := r.n } }) ∧
  ReadsOperand .sbc (readForms 0xE1#8 0xE5#8 0xE9#8 0xED#8 0xF1#8 0xF5#8 0xF9#8 0xFD#8)
    (fun s m =>
      let r := if s.flags.d = true ∧ s.cfg.decimalEnabled = true then subDec s.a m s.flags.c
        else addBin s.a (~~~m) s.flags.c
      { s with a := r.r, flags := { s.flags with c := r.c, z := r.z, v := r.v, n := r.n } })

/-- The binary cores in numbers: the sum modulo 256, C on unsigned overflow (no borrow for the
subtraction), V when the signed result does not fit, Z and N of the result (R120, R122). -/
def Obligations.BinaryCoresComputeSumAndOverflow : Prop :=
  ∀ (a m : Byte) (c : Bool),
    ((addBin a m c).r.toNat = (a.toNat + m.toNat + c.toNat) % 256 ∧
      ((addBin a m c).c = true ↔ a.toNat + m.toNat + c.toNat ≥ 256) ∧
      ((addBin a m c).v = true ↔
        ¬(-128 ≤ a.toInt + m.toInt + c.toNat ∧ a.toInt + m.toInt + c.toNat ≤ 127)) ∧
      ((addBin a m c).z = true ↔ (addBin a m c).r = 0#8) ∧
      ((addBin a m c).n = true ↔ (addBin a m c).r.toNat ≥ 128)) ∧
    ((subBin a m c).r.toNat = (a.toNat + 256 - m.toNat - (1 - c.toNat)) % 256 ∧
      ((subBin a m c).c = true ↔ a.toNat ≥ m.toNat + (1 - c.toNat)) ∧
      ((subBin a m c).v = true ↔
        ¬(-128 ≤ a.toInt - m.toInt - (1 - c.toNat) ∧ a.toInt - m.toInt - (1 - c.toNat) ≤ 127)) ∧
      ((subBin a m c).z = true ↔ (subBin a m c).r = 0#8) ∧
      ((subBin a m c).n = true ↔ (subBin a m c).r.toNat ≥ 128))

/-- On two-digit decimal operands the decimal cores are decimal addition and subtraction modulo 100,
with C the decimal carry and no-borrow; the flags of a decimal subtraction are the binary ones (R121, R123). -/
def Obligations.DecimalCoresAreDecimalArithmetic : Prop :=
  ∀ (a m : Byte) (c : Bool), isBcd a = true → isBcd m = true →
    (isBcd (addDec a m c).r = true ∧
      bcdValue (addDec a m c).r = (bcdValue a + bcdValue m + c.toNat) % 100 ∧
      ((addDec a m c).c = true ↔ bcdValue a + bcdValue m + c.toNat ≥ 100) ∧
      (addDec a m c).z = (addBin a m c).z) ∧
    (isBcd (subDec a m c).r = true ∧
      bcdValue (subDec a m c).r = (bcdValue a + 100 - bcdValue m - (1 - c.toNat)) % 100 ∧
      ((subDec a m c).c = true ↔ bcdValue a ≥ bcdValue m + (1 - c.toNat)) ∧
      (subDec a m c).c = (subBin a m c).c ∧ (subDec a m c).z = (subBin a m c).z ∧
      (subDec a m c).v = (subBin a m c).v ∧ (subDec a m c).n = (subBin a m c).n)

/-- The decimal cores on every byte, digits above 9 among them, by the digit corrections of R121 and
R123 in numbers (`signed` is the signed view of a byte). `t` is the value before the high-digit
correction: it gives N and V of an addition. The four flags of a subtraction are the binary ones. The
corrections are from general knowledge (assumption log 9). -/
def Obligations.DecimalCoresOnEveryByte : Prop :=
  ∀ (a m : Byte) (c : Bool),
    (let signed (k : Nat) : Int := if k ≥ 128 then k - 256 else k
      let low := a.toNat % 16 + m.toNat % 16 + c.toNat
      let al := if low ≥ 10 then (low + 6) % 16 + 16 else low
      let t := 16 * (a.toNat / 16) + 16 * (m.toNat / 16) + al
      let ts := signed (16 * (a.toNat / 16)) + signed (16 * (m.toNat / 16)) + al
      (addDec a m c).r.toNat = (if t ≥ 160 then t + 96 else t) % 256 ∧
        ((addDec a m c).c = true ↔ t ≥ 160) ∧
        ((addDec a m c).z = true ↔ (a.toNat + m.toNat + c.toNat) % 256 = 0) ∧
        ((addDec a m c).v = true ↔ ts < -128 ∨ 127 < ts) ∧
        ((addDec a m c).n = true ↔ t / 128 % 2 = 1)) ∧
    (let low : Int := a.toNat % 16 - m.toNat % 16 + c.toNat - 1
      let al := if low < 0 then (low - 6) % 16 - 16 else low
      let t : Int := 16 * (a.toNat / 16) - 16 * (m.toNat / 16) + al
      ((subDec a m c).r.toNat : Int) = (if t < 0 then t - 96 else t) % 256 ∧
        (subDec a m c).c = (subBin a m c).c ∧ (subDec a m c).z = (subBin a m c).z ∧
        (subDec a m c).v = (subBin a m c).v ∧ (subDec a m c).n = (subBin a m c).n)

/-- The carry and borrow duality in binary mode: SBC of the same operand, with the complement of the
carry-in, undoes ADC and gives the complement of its carry (R126). -/
def Obligations.SbcUndoesAdc : Prop :=
  ∀ (s : State) (b : Byte), s.flags.d = false ∨ s.cfg.decimalEnabled = false →
    ∃ t u, exec (.adc (.immediate b)) s = .next t ∧
      exec (.sbc (.immediate b)) { t with flags := { t.flags with c := !s.flags.c } } = .next u ∧
      u.a = s.a ∧ u.flags.c = !t.flags.c

/-! ### Logical, shift, increment, compare -/

/-- AND, ORA and EOR write A bit by bit and set Z and N from it; C, V and memory are unchanged
(R130, R131, R132). -/
def Obligations.LogicalInstructionsWriteA : Prop :=
  ReadsOperand .and (readForms 0x21#8 0x25#8 0x29#8 0x2D#8 0x31#8 0x35#8 0x39#8 0x3D#8)
    (fun s m => { s with a := s.a &&& m, flags := flagsNZ s.flags (s.a &&& m) }) ∧
  ReadsOperand .ora (readForms 0x01#8 0x05#8 0x09#8 0x0D#8 0x11#8 0x15#8 0x19#8 0x1D#8)
    (fun s m => { s with a := s.a ||| m, flags := flagsNZ s.flags (s.a ||| m) }) ∧
  ReadsOperand .eor (readForms 0x41#8 0x45#8 0x49#8 0x4D#8 0x51#8 0x55#8 0x59#8 0x5D#8)
    (fun s m => { s with a := s.a ^^^ m, flags := flagsNZ s.flags (s.a ^^^ m) })

/-- BIT writes Z from A & m and copies bits 7 and 6 of m to N and V; A and memory are unchanged (R133). -/
def Obligations.BitWritesFlagsOnly : Prop :=
  ReadsOperand .bit [⟨0x24#8, .zeroPage, 2, 3, false⟩, ⟨0x2C#8, .absolute, 3, 4, false⟩]
    (fun s m => { s with flags := { s.flags with
      z := decide (s.a &&& m = 0#8)
      n := decide (m.toNat ≥ 128)
      v := decide (m.toNat % 128 ≥ 64) } })

/-- ASL, LSR, ROL and ROR, on A and on memory: the result, the bit shifted out in C, Z and N of the
result; nothing else changes (R140 to R144, the last from general knowledge, assumption log 9). -/
def Obligations.ShiftsAndRotatesMoveOneBit : Prop :=
  Shifts .asl 0x0A#8 (modifyForms 0x06#8 0x0E#8 0x16#8 0x1E#8)
    (fun _ m => BitVec.ofNat 8 (2 * m.toNat)) (fun m => decide (m.toNat ≥ 128)) ∧
  Shifts .lsr 0x4A#8 (modifyForms 0x46#8 0x4E#8 0x56#8 0x5E#8)
    (fun _ m => BitVec.ofNat 8 (m.toNat / 2)) (fun m => decide (m.toNat % 2 = 1)) ∧
  Shifts .rol 0x2A#8 (modifyForms 0x26#8 0x2E#8 0x36#8 0x3E#8)
    (fun c m => BitVec.ofNat 8 (2 * m.toNat + c.toNat)) (fun m => decide (m.toNat ≥ 128)) ∧
  Shifts .ror 0x6A#8 (modifyForms 0x66#8 0x6E#8 0x76#8 0x7E#8)
    (fun c m => BitVec.ofNat 8 (m.toNat / 2 + 128 * c.toNat)) (fun m => decide (m.toNat % 2 = 1))

/-- Nine rotations of A to the left give back A and C (R143's corner case). -/
def Obligations.NineRotationsRestoreAAndC : Prop :=
  ∀ s : State, ∃ t,
    Nat.iterate (fun r => r.bind fun u => nextOf (exec (.rol .accumulator) u)) 9 (some s) = some t ∧
    t.a = s.a ∧ t.flags.c = s.flags.c

/-- INC and DEC change the byte at the effective address by one, modulo 256, and set Z and N from it;
C, V and every other byte are unchanged. Neither has another form (R150, R151). -/
def Obligations.IncAndDecModifyMemory : Prop :=
  HasModes .inc [.zeroPage, .zeroPageX, .absolute, .absoluteX] ∧
  HasModes .dec [.zeroPage, .zeroPageX, .absolute, .absoluteX] ∧
  ModifiesMemory .inc (modifyForms 0xE6#8 0xEE#8 0xF6#8 0xFE#8)
    (fun _ m => BitVec.ofNat 8 (m.toNat + 1))
    (fun s m => flagsNZ s.flags (BitVec.ofNat 8 (m.toNat + 1))) ∧
  ModifiesMemory .dec (modifyForms 0xC6#8 0xCE#8 0xD6#8 0xDE#8)
    (fun _ m => BitVec.ofNat 8 (m.toNat + 255))
    (fun s m => flagsNZ s.flags (BitVec.ofNat 8 (m.toNat + 255)))

/-- INX, INY, DEX and DEY change their register by one, modulo 256, and set Z and N from it
(R152, R153, R154, R155). -/
def Obligations.IndexIncrementsAndDecrements : Prop :=
  OneByte .inx 0xE8#8 2 (fun s => { s with
    x := BitVec.ofNat 8 (s.x.toNat + 1), flags := flagsNZ s.flags (BitVec.ofNat 8 (s.x.toNat + 1)) }) ∧
  OneByte .iny 0xC8#8 2 (fun s => { s with
    y := BitVec.ofNat 8 (s.y.toNat + 1), flags := flagsNZ s.flags (BitVec.ofNat 8 (s.y.toNat + 1)) }) ∧
  OneByte .dex 0xCA#8 2 (fun s => { s with
    x := BitVec.ofNat 8 (s.x.toNat + 255), flags := flagsNZ s.flags (BitVec.ofNat 8 (s.x.toNat + 255)) }) ∧
  OneByte .dey 0x88#8 2 (fun s => { s with
    y := BitVec.ofNat 8 (s.y.toNat + 255), flags := flagsNZ s.flags (BitVec.ofNat 8 (s.y.toNat + 255)) })

/-- CMP, CPX and CPY set C, Z and N from the difference and write no register, memory, V or D
(R160, R161, R162, R163). -/
def Obligations.ComparesWriteCZNOnly : Prop :=
  ReadsOperand .cmp (readForms 0xC1#8 0xC5#8 0xC9#8 0xCD#8 0xD1#8 0xD5#8 0xD9#8 0xDD#8)
    (fun s m => { s with flags := compareFlags s.flags s.a m }) ∧
  ReadsOperand .cpx [⟨0xE0#8, .immediate, 2, 2, false⟩, ⟨0xE4#8, .zeroPage, 2, 3, false⟩,
      ⟨0xEC#8, .absolute, 3, 4, false⟩]
    (fun s m => { s with flags := compareFlags s.flags s.x m }) ∧
  ReadsOperand .cpy [⟨0xC0#8, .immediate, 2, 2, false⟩, ⟨0xC4#8, .zeroPage, 2, 3, false⟩,
      ⟨0xCC#8, .absolute, 3, 4, false⟩]
    (fun s m => { s with flags := compareFlags s.flags s.y m })

/-! ### Branches, jumps, the stack -/

/-- The eight branches: each tests its flag; a taken branch goes to PC + 2 + the signed displacement
modulo 2^16 for 3 cycles, 4 into another page than PC + 2; otherwise 2 cycles past it. No flag,
register or byte of memory changes (R170 to R178). -/
def Obligations.BranchesTestTheirFlag : Prop :=
  ∀ q ∈ ([(.bcc, 0x90#8, fun p => !p.c), (.bcs, 0xB0#8, fun p => p.c),
      (.beq, 0xF0#8, fun p => p.z), (.bne, 0xD0#8, fun p => !p.z),
      (.bmi, 0x30#8, fun p => p.n), (.bpl, 0x10#8, fun p => !p.n),
      (.bvc, 0x50#8, fun p => !p.v), (.bvs, 0x70#8, fun p => p.v)] :
      List ((Byte → Instr) × Byte × (Flags → Bool))),
    ∀ (disp : Byte) (s : State), encode (q.1 disp) = [q.2.1, disp] ∧
      (q.2.2 s.flags = false →
        exec (q.1 disp) s = .next { s with pc := s.pc + 2, cycles := s.cycles + 2 }) ∧
      (q.2.2 s.flags = true → ∃ target : Addr,
        (target.toNat : Int) = (s.pc.toNat + 2 + disp.toInt) % 65536 ∧
        exec (q.1 disp) s = .next { s with
          pc := target
          cycles := s.cycles +
            (if target.toNat / 256 = (s.pc.toNat + 2) % 65536 / 256 then 3 else 4) })

/-- JMP goes to the effective address in both of its forms, the only ones, and changes nothing else
but the cycles (R180). -/
def Obligations.JmpAssignsPc : Prop :=
  HasModes .jmp [.absolute, .indirect] ∧
  (∀ (addr : Addr) (s : State), encode (.jmp (.absolute addr)) = [0x4C#8, lowByte addr, highByte addr] ∧
    exec (.jmp (.absolute addr)) s = .next { s with pc := addr, cycles := s.cycles + 3 }) ∧
  ∀ (ptr : Addr) (s : State), encode (.jmp (.indirect ptr)) = [0x6C#8, lowByte ptr, highByte ptr] ∧
    ∃ ea : Addr, ea.toNat = 256 *
        (memRead s (BitVec.ofNat 16 (ptr.toNat / 256 * 256 + (ptr.toNat + 1) % 256))).toNat +
        (memRead s ptr).toNat ∧
      exec (.jmp (.indirect ptr)) s = .next { s with pc := ea, cycles := s.cycles + 5 }

/-- JSR stores the address of its own last byte, high byte first, in the next two stack bytes, moves SP
by two and goes to its operand; every other byte, register and flag is unchanged (R181). -/
def Obligations.JsrPushesTheReturnAddress : Prop :=
  ∀ (target : Addr) (s : State),
    encode (.jsr target) = [0x20#8, lowByte target, highByte target] ∧
    ∃ t, exec (.jsr target) s = .next t ∧
      t = { s with pc := target, sp := s.sp - 2, cycles := s.cycles + 6, mem := t.mem } ∧
      ∀ b, memRead t b =
        if b = pushSlot s 0 then highByte (s.pc + 2)
        else if b = pushSlot s 1 then lowByte (s.pc + 2) else memRead s b

/-- RTS pulls the low byte, then the high byte, and goes to the address after them; RTI pulls the six
flags first, bits 5 and 4 discarded, and uses the address as pulled. Memory and the other registers
are unchanged (R182, R183). -/
def Obligations.RtsAndRtiPullThePc : Prop :=
  encode .rts = [0x60#8] ∧ encode .rti = [0x40#8] ∧
  ∀ s : State,
    exec .rts s = .next { s with
      pc := BitVec.ofNat 16
        (256 * (memRead s (pullSlot s 1)).toNat + (memRead s (pullSlot s 0)).toNat + 1)
      sp := s.sp + 2
      cycles := s.cycles + 6 } ∧
    ∃ p : Flags, statusByte p = memRead s (pullSlot s 0) ||| 0x30#8 ∧
      exec .rti s = .next { s with
        pc := BitVec.ofNat 16
          (256 * (memRead s (pullSlot s 2)).toNat + (memRead s (pullSlot s 1)).toNat)
        sp := s.sp + 3
        flags := p
        cycles := s.cycles + 6 }

/-- PHA stores A and PHP the status byte, with bits 5 and 4 set, in the next stack byte and move SP by
one; nothing else changes (R184, R185). -/
def Obligations.PhaAndPhpPushOneByte : Prop :=
  encode .pha = [0x48#8] ∧ encode .php = [0x08#8] ∧
  ∀ s : State,
    (∃ t, exec .pha s = .next t ∧
      t = { s with pc := s.pc + 1, sp := s.sp - 1, cycles := s.cycles + 3, mem := t.mem } ∧
      ∀ b, memRead t b = if b = pushSlot s 0 then s.a else memRead s b) ∧
    ∃ t, exec .php s = .next t ∧
      t = { s with pc := s.pc + 1, sp := s.sp - 1, cycles := s.cycles + 3, mem := t.mem } ∧
      ∀ b, memRead t b = if b = pushSlot s 0 then statusByte s.flags else memRead s b

/-- PLA pulls a byte into A and sets Z and N from it; PLP pulls the six flags, bits 5 and 4 discarded.
Both move SP by one and change nothing else (R186, R187). -/
def Obligations.PlaAndPlpPullOneByte : Prop :=
  OneByte .pla 0x68#8 4 (fun s => { s with
    a := memRead s (pullSlot s 0), sp := s.sp + 1,
    flags := flagsNZ s.flags (memRead s (pullSlot s 0)) }) ∧
  encode .plp = [0x28#8] ∧
  ∀ s : State, ∃ p : Flags, statusByte p = memRead s (pullSlot s 0) ||| 0x30#8 ∧
    exec .plp s = .next { s with
      pc := s.pc + 1, sp := s.sp + 1, flags := p, cycles := s.cycles + 4 }

/-- JSR followed by RTS resumes after the JSR with SP and every register and flag as before; memory
differs in the two stack bytes only (R181, R182). -/
def Obligations.RtsReturnsFromJsr : Prop :=
  ∀ (target : Addr) (s : State), ∃ t u, exec (.jsr target) s = .next t ∧ exec .rts t = .next u ∧
    u = { s with pc := s.pc + 3, cycles := s.cycles + 12, mem := u.mem } ∧
    ∀ b, b ≠ pushSlot s 0 → b ≠ pushSlot s 1 → memRead u b = memRead s b

/-- PHP followed by PLP restores every flag and PHA followed by PLA restores A, with SP as before,
whatever the flags and A became in between (R187, R53). -/
def Obligations.PullsUndoPushes : Prop :=
  ∀ (s : State) (p : Flags) (v : Byte),
    (∃ t u, exec .php s = .next t ∧ exec .plp { t with flags := p } = .next u ∧
      u.flags = s.flags ∧ u.sp = s.sp) ∧
    ∃ t u, exec .pha s = .next t ∧ exec .pla { t with a := v } = .next u ∧
      u.a = s.a ∧ u.sp = s.sp ∧ u.flags = flagsNZ s.flags s.a

/-! ### Flags, transfers, NOP, BRK -/

/-- Each of the seven flag instructions sets its one flag to its value and changes nothing else
(R200 to R206). -/
def Obligations.FlagInstructionsSetOneFlag : Prop :=
  OneByte .clc 0x18#8 2 (fun s => { s with flags := { s.flags with c := false } }) ∧
  OneByte .sec 0x38#8 2 (fun s => { s with flags := { s.flags with c := true } }) ∧
  OneByte .cld 0xD8#8 2 (fun s => { s with flags := { s.flags with d := false } }) ∧
  OneByte .sed 0xF8#8 2 (fun s => { s with flags := { s.flags with d := true } }) ∧
  OneByte .cli 0x58#8 2 (fun s => { s with flags := { s.flags with i := false } }) ∧
  OneByte .sei 0x78#8 2 (fun s => { s with flags := { s.flags with i := true } }) ∧
  OneByte .clv 0xB8#8 2 (fun s => { s with flags := { s.flags with v := false } })

/-- Each transfer copies its source register to its destination and, but for TXS, sets Z and N from
the value; nothing else changes (R207 to R212). -/
def Obligations.TransfersCopyARegister : Prop :=
  OneByte .tax 0xAA#8 2 (fun s => { s with x := s.a, flags := flagsNZ s.flags s.a }) ∧
  OneByte .txa 0x8A#8 2 (fun s => { s with a := s.x, flags := flagsNZ s.flags s.x }) ∧
  OneByte .tay 0xA8#8 2 (fun s => { s with y := s.a, flags := flagsNZ s.flags s.a }) ∧
  OneByte .tya 0x98#8 2 (fun s => { s with a := s.y, flags := flagsNZ s.flags s.y }) ∧
  OneByte .tsx 0xBA#8 2 (fun s => { s with x := s.sp, flags := flagsNZ s.flags s.sp }) ∧
  OneByte .txs 0x9A#8 2 (fun s => { s with sp := s.x })

/-- NOP changes nothing but PC and the cycle count, and 0xEA is the only opcode that is NOP: the
undocumented NOP-like slots are illegal (R213). -/
def Obligations.NopOnlyAdvances : Prop :=
  OneByte .nop 0xEA#8 2 (fun s => s) ∧ (∀ b : Byte, (opcodeRow b).op = .nop ↔ b = 0xEA#8) ∧
    (opcodeRow 0x1A#8).op = .illegal ∧ (opcodeRow 0x80#8).op = .illegal

/-- BRK stores the high and low byte of its address + 2 and the status byte in the next three stack
bytes, moves SP by three and sets I. In `Halt` mode it then moves past its one byte and halts with
`Break` of its address; in `Vector` mode it goes to the word at BRK_VECTOR (R214). -/
def Obligations.BrkPushesThenHaltsOrVectors : Prop :=
  encode .brk = [0x00#8] ∧
  ∀ s : State, ∃ t, exec .brk s = .next t ∧
    (∀ b, memRead t b =
      if b = pushSlot s 0 then highByte (s.pc + 2)
      else if b = pushSlot s 1 then lowByte (s.pc + 2)
      else if b = pushSlot s 2 then statusByte s.flags else memRead s b) ∧
    (s.cfg.brkMode = .halt → t = { s with
      pc := s.pc + 1, sp := s.sp - 3, flags := { s.flags with i := true }, halted := true,
      haltReason := some (.brk s.pc), cycles := s.cycles + 7, mem := t.mem }) ∧
    (s.cfg.brkMode = .vector → t = { s with
      pc := BitVec.ofNat 16 (256 * (memRead t (s.cfg.brkVector + 1)).toNat +
        (memRead t s.cfg.brkVector).toNat)
      sp := s.sp - 3, flags := { s.flags with i := true }, cycles := s.cycles + 7, mem := t.mem })

/-- In `Vector` mode RTI at the handler's first instruction resumes two bytes after the BRK with SP,
every register and all six flags, I among them, as before the BRK (R235). -/
def Obligations.RtiReturnsFromBrk : Prop :=
  ∀ s : State, s.cfg.brkMode = .vector → ∃ t u, exec .brk s = .next t ∧ exec .rti t = .next u ∧
    u = { s with pc := s.pc + 2, cycles := s.cycles + 13, mem := u.mem } ∧
    ∀ b, b ≠ pushSlot s 0 → b ≠ pushSlot s 1 → b ≠ pushSlot s 2 → memRead u b = memRead s b
end

