-- ==== Sys2Proof/Laws/Decode.lean ====
section
/-! SUPPORT. The facts of the opcode table that the decoder and the encoder rest on: no two legal
entries share a mnemonic and a mode, the table's modes are those of the rules' own lists, and the
illegal entries are the bytes of R67. -/

namespace Sys2Proof

theorem opcodeTable_length : opcodeTable.length = 256 := by decide +kernel

/-- The entry of a byte is the table's entry at its index. -/
theorem getElem_opcodeTable (b : Byte) : opcodeTable[b.toNat]? = some (opcodeRow b) := by
  have h : b.toNat < opcodeTable.length := by rw [opcodeTable_length]; exact b.isLt
  simp [opcodeRow, List.getD, List.getElem?_eq_getElem h]

theorem opcodeRow_mem (b : Byte) : opcodeRow b ∈ opcodeTable :=
  List.mem_of_getElem? (getElem_opcodeTable b)

/-- How many bytes an operand of a mode has (R60). -/
def Mode.operandBytes (m : Mode) : Nat := (m.operand 0 0).bytes.length

theorem operand_bytes_length (o : Operand) : o.bytes.length = o.mode.operandBytes := by
  cases o <;> rfl

theorem Mode.operand_mode (m : Mode) (b1 b2 : Byte) : (m.operand b1 b2).mode = m := by
  cases m <;> rfl

/-- A legal entry has a mode its mnemonic's rule lists, and the size of its mode; an illegal entry is
`illegalRow`. -/
theorem opcodeTable_sound :
    ∀ r ∈ opcodeTable, if r.op = .illegal then r = illegalRow
      else r.mode ∈ r.op.modes ∧ r.size = 1 + r.mode.operandBytes := by
  decide +kernel

/-- No two legal entries of the table share a mnemonic and a mode. -/
theorem opcodeTable_distinct :
    opcodeTable.Pairwise fun q r => ¬(r.op ≠ .illegal ∧ q.op = r.op ∧ q.mode = r.mode) := by
  decide +kernel

/-- The illegal entries are at the bytes R67 lists. -/
theorem illegalBytes_eq :
    (opcodeTable.zipIdx.filter fun p => p.1.op = .illegal).map (fun p => BitVec.ofNat 8 p.2) =
      illegalBytes := by
  decide +kernel

theorem mem_illegalBytes (b : Byte) : b ∈ illegalBytes ↔ (opcodeRow b).op = .illegal := by
  rw [← illegalBytes_eq]
  simp only [List.mem_map, List.mem_filter, decide_eq_true_eq, Prod.exists]
  constructor
  · rintro ⟨r, n, ⟨hm, hr⟩, rfl⟩
    have hn := List.mem_zipIdx_iff_getElem?.1 hm
    have hlt : n < 256 := by
      have := (List.getElem?_eq_some_iff.1 hn).1
      rwa [opcodeTable_length] at this
    have := getElem_opcodeTable (BitVec.ofNat 8 n)
    rw [BitVec.toNat_ofNat, Nat.mod_eq_of_lt hlt] at this
    rw [← Option.some_inj.1 (hn.symm.trans this)]
    exact hr
  · intro h
    exact ⟨opcodeRow b, b.toNat, ⟨List.mem_zipIdx_iff_getElem?.2 (getElem_opcodeTable b), h⟩,
      by simp⟩

/-- Every mode a rule lists for a mnemonic has an entry in the table. -/
theorem opcodeOf_isSome (op : Op) :
    (op.modes.all fun m => (opcodeOf op m).isSome) = true := by
  cases op <;> decide +kernel

theorem opcodeOf_modes {op : Op} {m : Mode} (h : m ∈ op.modes) : ∃ b, opcodeOf op m = some b :=
  Option.isSome_iff_exists.1 (List.all_eq_true.1 (opcodeOf_isSome op) m h)

/-- The opcode byte of a mnemonic in a mode has that entry. -/
theorem opcodeOf_sound {op : Op} {m : Mode} {b : Byte} (h : opcodeOf op m = some b) :
    (opcodeRow b).op = op ∧ (opcodeRow b).mode = m ∧ rowOf op m = some (opcodeRow b) := by
  obtain ⟨n, hn, rfl⟩ := Option.map_eq_some_iff.1 h
  rw [List.findIdx?_eq_some_iff_getElem] at hn
  obtain ⟨hlt, hp, hmin⟩ := hn
  have hrow : opcodeRow (BitVec.ofNat 8 n) = opcodeTable[n] := by
    have h' := getElem_opcodeTable (BitVec.ofNat 8 n)
    rw [BitVec.toNat_ofNat, Nat.mod_eq_of_lt (by rwa [opcodeTable_length] at hlt),
      List.getElem?_eq_getElem hlt] at h'
    exact (Option.some_inj.1 h').symm
  have hp' := hp
  rw [← hrow] at hp'
  simp only [Bool.and_eq_true, beq_iff_eq] at hp'
  refine ⟨hp'.1, hp'.2, ?_⟩
  rw [rowOf, List.find?_eq_some_iff_getElem, hrow]
  exact ⟨hp, n, hlt, rfl, fun j hj => by simpa [imp_iff_not_or] using hmin j hj⟩

/-- The encoder finds the byte the decoder read, for a legal opcode. -/
theorem opcodeOf_opcodeRow (b : Byte) (h : (opcodeRow b).op ≠ .illegal) :
    opcodeOf (opcodeRow b).op (opcodeRow b).mode = some b := by
  have hlt : b.toNat < opcodeTable.length := by rw [opcodeTable_length]; exact b.isLt
  have hrow : opcodeTable[b.toNat] = opcodeRow b := by
    have h' := getElem_opcodeTable b
    rw [List.getElem?_eq_getElem hlt] at h'
    exact Option.some_inj.1 h'
  refine Option.map_eq_some_iff.2 ⟨b.toNat, ?_, by simp⟩
  rw [List.findIdx?_eq_some_iff_getElem]
  refine ⟨hlt, by simp [hrow], fun j hj => ?_⟩
  have := List.pairwise_iff_getElem.1 opcodeTable_distinct j b.toNat (hj.trans hlt) hlt hj
  rw [hrow] at this
  simp only [Bool.and_eq_true, beq_iff_eq]
  exact fun e => this ⟨h, e.1, e.2⟩

/-- The operation tag and the mode of what the decoder builds are the table's. -/
theorem decode_op (b0 b1 b2 : Byte) : (decode b0 b1 b2).op = (opcodeRow b0).op := by
  unfold decode
  cases (opcodeRow b0).op <;> rfl

/-- The instruction's words begin with a byte of its own table entry. -/
theorem encode_head {i : Instr} (h : i.wellFormed = true) :
    ∃ b, encode i = b :: i.operand.bytes ∧ (opcodeRow b).op = i.op ∧ (opcodeRow b).mode = i.mode ∧
      rowOf i.op i.mode = some (opcodeRow b) := by
  rw [Instr.wellFormed, Bool.and_eq_true] at h
  obtain ⟨hm, hr⟩ := h
  obtain ⟨b, hb⟩ := opcodeOf_modes (List.contains_iff_mem.1 hm)
  cases hraw : i.rawByte with
  | none => exact ⟨b, by rw [encode, hraw, hb], opcodeOf_sound hb⟩
  | some raw =>
    have hi : i = .illegal raw := by cases i <;> simp_all [Instr.rawByte]
    subst hi
    have hmem : raw ∈ illegalBytes := by simpa [Instr.rawByte] using hr
    have hop := (mem_illegalBytes raw).1 hmem
    have hrow := opcodeTable_sound _ (opcodeRow_mem raw)
    rw [if_pos hop] at hrow
    refine ⟨raw, by simp [encode, Instr.rawByte, Instr.operand, Operand.bytes, hmem], ?_⟩
    rw [hrow]
    exact ⟨rfl, rfl, (by decide : rowOf .illegal .implied = some illegalRow)⟩

end Sys2Proof
end

