-- ==== Sys2Proof/Laws/Memory.lean ====
section
/-! SUPPORT. The byte store: a read after a write, and the canonical form that every memory operation
keeps. -/

namespace Sys2Proof.Machine

@[simp] theorem Memory.read_nil (a : Nat) : Memory.read [] a = Memory.unlisted := rfl

theorem Memory.read_cons (k : Nat) (v : Byte) (m : Memory) (a : Nat) :
    Memory.read ((k, v) :: m) a = if a = k then v else Memory.read m a := rfl

theorem Memory.read_erase (m : Memory) (a b : Nat) :
    (m.erase a).read b = if b = a then Memory.unlisted else m.read b := by
  induction m with
  | nil => simp [Memory.erase]
  | cons c m ih =>
    obtain ⟨k, w⟩ := c
    unfold Memory.erase
    split <;> simp only [Memory.read_cons, ih] <;> split_ifs <;> simp_all

theorem Memory.read_insert (m : Memory) (a b : Nat) (v : Byte) :
    (m.insert a v).read b = if b = a then v else m.read b := by
  induction m with
  | nil => simp [Memory.insert, Memory.read_cons]
  | cons c m ih =>
    obtain ⟨k, w⟩ := c
    unfold Memory.insert
    by_cases h1 : a < k
    · rw [if_pos h1, Memory.read_cons]
    · rw [if_neg h1]
      by_cases h2 : a = k
      · subst h2
        by_cases hb : b = a <;> simp [Memory.read_cons, hb]
      · rw [if_neg h2, Memory.read_cons, Memory.read_cons, ih]
        by_cases hb : b = a
        · subst hb; simp [h2]
        · simp [hb]

/-- The byte read after a store: the stored byte at its address, the old byte elsewhere (R43, R55). -/
theorem Memory.read_write (m : Memory) (a b : Nat) (v : Byte) :
    (m.write a v).read b = if b = a then v else m.read b := by
  unfold Memory.write
  split_ifs <;> simp_all [Memory.read_erase, Memory.read_insert]

/-! ### The canonical form -/

/-- The canonical form as a proposition. -/
theorem Memory.wf_cons (k : Nat) (v : Byte) (m : Memory) :
    Memory.wf ((k, v) :: m) = true ↔
      k < 65536 ∧ v ≠ Memory.unlisted ∧ (∀ c ∈ m, k < c.1) ∧ m.wf = true := by
  simp [Memory.wf, and_assoc]

theorem Memory.mem_erase {m : Memory} {a : Nat} {c : Host.Cell} (h : c ∈ m.erase a) : c ∈ m := by
  induction m with
  | nil => exact h
  | cons d m ih =>
    obtain ⟨k, w⟩ := d
    unfold Memory.erase at h
    split_ifs at h
    · exact List.mem_cons_of_mem _ (ih h)
    · rcases List.mem_cons.1 h with rfl | h
      · exact List.mem_cons_self
      · exact List.mem_cons_of_mem _ (ih h)

theorem Memory.mem_insert {m : Memory} {a : Nat} {v : Byte} {c : Host.Cell}
    (h : c ∈ m.insert a v) : c = (a, v) ∨ c ∈ m := by
  induction m with
  | nil => simpa [Memory.insert] using h
  | cons d m ih =>
    obtain ⟨k, w⟩ := d
    unfold Memory.insert at h
    split_ifs at h
    · exact List.mem_cons.1 h
    · exact (List.mem_cons.1 h).imp_right (List.mem_cons_of_mem _)
    · rcases List.mem_cons.1 h with rfl | h
      · exact .inr List.mem_cons_self
      · exact (ih h).imp_right (List.mem_cons_of_mem _)

theorem Memory.erase_wf {m : Memory} (h : m.wf = true) (a : Nat) : (m.erase a).wf = true := by
  induction m with
  | nil => rfl
  | cons c m ih =>
    obtain ⟨k, w⟩ := c
    obtain ⟨hk, hw, hlt, hm⟩ := (Memory.wf_cons k w m).1 h
    unfold Memory.erase
    split_ifs
    · exact ih hm
    · exact (Memory.wf_cons ..).2 ⟨hk, hw, fun c hc => hlt c (Memory.mem_erase hc), ih hm⟩

theorem Memory.insert_wf {m : Memory} (h : m.wf = true) {a : Nat} {v : Byte} (ha : a < 65536)
    (hv : v ≠ Memory.unlisted) : (m.insert a v).wf = true := by
  induction m with
  | nil => exact (Memory.wf_cons ..).2 ⟨ha, hv, by simp, rfl⟩
  | cons c m ih =>
    obtain ⟨k, w⟩ := c
    obtain ⟨hk, hw, hlt, hm⟩ := (Memory.wf_cons k w m).1 h
    unfold Memory.insert
    split_ifs with h1 h2
    · refine (Memory.wf_cons ..).2 ⟨ha, hv, ?_, h⟩
      intro c hc
      rcases List.mem_cons.1 hc with rfl | hc
      · exact h1
      · exact h1.trans (hlt c hc)
    · exact (Memory.wf_cons ..).2 ⟨ha, hv, fun c hc => h2 ▸ hlt c hc, hm⟩
    · refine (Memory.wf_cons ..).2 ⟨hk, hw, ?_, ih hm⟩
      intro c hc
      rcases Memory.mem_insert hc with rfl | hc
      · exact Nat.lt_of_le_of_ne (Nat.le_of_not_lt h1) (Ne.symm h2)
      · exact hlt c hc

/-- A store below 65536 keeps the canonical form. -/
theorem Memory.write_wf {m : Memory} (h : m.wf = true) {a : Nat} (ha : a < 65536) (v : Byte) :
    (m.write a v).wf = true := by
  unfold Memory.write
  split_ifs with hv
  · exact Memory.erase_wf h a
  · exact Memory.insert_wf h ha hv

/-- In the canonical form an address without an entry of the list reads as unlisted. -/
theorem Memory.read_unlisted {m : Memory} {a : Nat} (h : ∀ c ∈ m, c.1 ≠ a) :
    m.read a = Memory.unlisted := by
  induction m with
  | nil => rfl
  | cons c m ih =>
    rw [Memory.read_cons, if_neg (fun e => h c List.mem_cons_self e.symm),
      ih fun d hd => h d (List.mem_cons_of_mem _ hd)]

/-- In the canonical form the entries are exactly what the addresses read as. -/
theorem Memory.mem_iff {m : Memory} (h : m.wf = true) (a : Nat) (v : Byte) :
    (a, v) ∈ m ↔ v ≠ Memory.unlisted ∧ m.read a = v := by
  induction m with
  | nil => simpa [Memory.read] using fun h e => h e.symm
  | cons c m ih =>
    obtain ⟨k, w⟩ := c
    obtain ⟨-, hw, hlt, hm⟩ := (Memory.wf_cons k w m).1 h
    rw [List.mem_cons, ih hm, Memory.read_cons, Prod.mk.injEq]
    by_cases e : a = k
    · subst e
      have hm0 : Memory.read m a = Memory.unlisted :=
        Memory.read_unlisted fun c hc => Nat.ne_of_gt (hlt c hc)
      rw [hm0, if_pos rfl]
      constructor
      · rintro (⟨-, rfl⟩ | ⟨h1, h2⟩)
        · exact ⟨hw, rfl⟩
        · exact absurd h2.symm h1
      · rintro ⟨-, rfl⟩
        exact .inl ⟨rfl, rfl⟩
    · simp [e]

end Sys2Proof.Machine
end

