-- ==== Sys2Proof/Laws/State.lean ====
section
/-! SUPPORT. The small lemmas of the state updates: one per field per update, and the flag updates
field by field, each true by unfolding. -/

namespace Sys2Proof.Machine

@[simp] theorem setPc_pc (s : State) (v : Addr) : (setPc s v).pc = v := rfl
@[simp] theorem setPc_a (s : State) (v : Addr) : (setPc s v).a = s.a := rfl
@[simp] theorem setPc_x (s : State) (v : Addr) : (setPc s v).x = s.x := rfl
@[simp] theorem setPc_y (s : State) (v : Addr) : (setPc s v).y = s.y := rfl
@[simp] theorem setPc_sp (s : State) (v : Addr) : (setPc s v).sp = s.sp := rfl
@[simp] theorem setPc_flags (s : State) (v : Addr) : (setPc s v).flags = s.flags := rfl
@[simp] theorem setPc_halted (s : State) (v : Addr) : (setPc s v).halted = s.halted := rfl
@[simp] theorem setPc_haltReason (s : State) (v : Addr) : (setPc s v).haltReason = s.haltReason := rfl
@[simp] theorem setPc_cycles (s : State) (v : Addr) : (setPc s v).cycles = s.cycles := rfl
@[simp] theorem setPc_mem (s : State) (v : Addr) : (setPc s v).mem = s.mem := rfl
@[simp] theorem setPc_cfg (s : State) (v : Addr) : (setPc s v).cfg = s.cfg := rfl

@[simp] theorem setA_pc (s : State) (v : Byte) : (setA s v).pc = s.pc := rfl
@[simp] theorem setA_a (s : State) (v : Byte) : (setA s v).a = v := rfl
@[simp] theorem setA_x (s : State) (v : Byte) : (setA s v).x = s.x := rfl
@[simp] theorem setA_y (s : State) (v : Byte) : (setA s v).y = s.y := rfl
@[simp] theorem setA_sp (s : State) (v : Byte) : (setA s v).sp = s.sp := rfl
@[simp] theorem setA_flags (s : State) (v : Byte) : (setA s v).flags = s.flags := rfl
@[simp] theorem setA_halted (s : State) (v : Byte) : (setA s v).halted = s.halted := rfl
@[simp] theorem setA_haltReason (s : State) (v : Byte) : (setA s v).haltReason = s.haltReason := rfl
@[simp] theorem setA_cycles (s : State) (v : Byte) : (setA s v).cycles = s.cycles := rfl
@[simp] theorem setA_mem (s : State) (v : Byte) : (setA s v).mem = s.mem := rfl
@[simp] theorem setA_cfg (s : State) (v : Byte) : (setA s v).cfg = s.cfg := rfl

@[simp] theorem setX_pc (s : State) (v : Byte) : (setX s v).pc = s.pc := rfl
@[simp] theorem setX_a (s : State) (v : Byte) : (setX s v).a = s.a := rfl
@[simp] theorem setX_x (s : State) (v : Byte) : (setX s v).x = v := rfl
@[simp] theorem setX_y (s : State) (v : Byte) : (setX s v).y = s.y := rfl
@[simp] theorem setX_sp (s : State) (v : Byte) : (setX s v).sp = s.sp := rfl
@[simp] theorem setX_flags (s : State) (v : Byte) : (setX s v).flags = s.flags := rfl
@[simp] theorem setX_halted (s : State) (v : Byte) : (setX s v).halted = s.halted := rfl
@[simp] theorem setX_haltReason (s : State) (v : Byte) : (setX s v).haltReason = s.haltReason := rfl
@[simp] theorem setX_cycles (s : State) (v : Byte) : (setX s v).cycles = s.cycles := rfl
@[simp] theorem setX_mem (s : State) (v : Byte) : (setX s v).mem = s.mem := rfl
@[simp] theorem setX_cfg (s : State) (v : Byte) : (setX s v).cfg = s.cfg := rfl

@[simp] theorem setY_pc (s : State) (v : Byte) : (setY s v).pc = s.pc := rfl
@[simp] theorem setY_a (s : State) (v : Byte) : (setY s v).a = s.a := rfl
@[simp] theorem setY_x (s : State) (v : Byte) : (setY s v).x = s.x := rfl
@[simp] theorem setY_y (s : State) (v : Byte) : (setY s v).y = v := rfl
@[simp] theorem setY_sp (s : State) (v : Byte) : (setY s v).sp = s.sp := rfl
@[simp] theorem setY_flags (s : State) (v : Byte) : (setY s v).flags = s.flags := rfl
@[simp] theorem setY_halted (s : State) (v : Byte) : (setY s v).halted = s.halted := rfl
@[simp] theorem setY_haltReason (s : State) (v : Byte) : (setY s v).haltReason = s.haltReason := rfl
@[simp] theorem setY_cycles (s : State) (v : Byte) : (setY s v).cycles = s.cycles := rfl
@[simp] theorem setY_mem (s : State) (v : Byte) : (setY s v).mem = s.mem := rfl
@[simp] theorem setY_cfg (s : State) (v : Byte) : (setY s v).cfg = s.cfg := rfl

@[simp] theorem setSp_pc (s : State) (v : Byte) : (setSp s v).pc = s.pc := rfl
@[simp] theorem setSp_a (s : State) (v : Byte) : (setSp s v).a = s.a := rfl
@[simp] theorem setSp_x (s : State) (v : Byte) : (setSp s v).x = s.x := rfl
@[simp] theorem setSp_y (s : State) (v : Byte) : (setSp s v).y = s.y := rfl
@[simp] theorem setSp_sp (s : State) (v : Byte) : (setSp s v).sp = v := rfl
@[simp] theorem setSp_flags (s : State) (v : Byte) : (setSp s v).flags = s.flags := rfl
@[simp] theorem setSp_halted (s : State) (v : Byte) : (setSp s v).halted = s.halted := rfl
@[simp] theorem setSp_haltReason (s : State) (v : Byte) : (setSp s v).haltReason = s.haltReason := rfl
@[simp] theorem setSp_cycles (s : State) (v : Byte) : (setSp s v).cycles = s.cycles := rfl
@[simp] theorem setSp_mem (s : State) (v : Byte) : (setSp s v).mem = s.mem := rfl
@[simp] theorem setSp_cfg (s : State) (v : Byte) : (setSp s v).cfg = s.cfg := rfl

@[simp] theorem setFlags_pc (s : State) (p : Flags) : (setFlags s p).pc = s.pc := rfl
@[simp] theorem setFlags_a (s : State) (p : Flags) : (setFlags s p).a = s.a := rfl
@[simp] theorem setFlags_x (s : State) (p : Flags) : (setFlags s p).x = s.x := rfl
@[simp] theorem setFlags_y (s : State) (p : Flags) : (setFlags s p).y = s.y := rfl
@[simp] theorem setFlags_sp (s : State) (p : Flags) : (setFlags s p).sp = s.sp := rfl
@[simp] theorem setFlags_flags (s : State) (p : Flags) : (setFlags s p).flags = p := rfl
@[simp] theorem setFlags_halted (s : State) (p : Flags) : (setFlags s p).halted = s.halted := rfl
@[simp] theorem setFlags_haltReason (s : State) (p : Flags) : (setFlags s p).haltReason = s.haltReason := rfl
@[simp] theorem setFlags_cycles (s : State) (p : Flags) : (setFlags s p).cycles = s.cycles := rfl
@[simp] theorem setFlags_mem (s : State) (p : Flags) : (setFlags s p).mem = s.mem := rfl
@[simp] theorem setFlags_cfg (s : State) (p : Flags) : (setFlags s p).cfg = s.cfg := rfl

@[simp] theorem setNZ_pc (s : State) (v : Byte) : (setNZ s v).pc = s.pc := rfl
@[simp] theorem setNZ_a (s : State) (v : Byte) : (setNZ s v).a = s.a := rfl
@[simp] theorem setNZ_x (s : State) (v : Byte) : (setNZ s v).x = s.x := rfl
@[simp] theorem setNZ_y (s : State) (v : Byte) : (setNZ s v).y = s.y := rfl
@[simp] theorem setNZ_sp (s : State) (v : Byte) : (setNZ s v).sp = s.sp := rfl
@[simp] theorem setNZ_flags (s : State) (v : Byte) : (setNZ s v).flags = s.flags.nz v := rfl
@[simp] theorem setNZ_halted (s : State) (v : Byte) : (setNZ s v).halted = s.halted := rfl
@[simp] theorem setNZ_haltReason (s : State) (v : Byte) : (setNZ s v).haltReason = s.haltReason := rfl
@[simp] theorem setNZ_cycles (s : State) (v : Byte) : (setNZ s v).cycles = s.cycles := rfl
@[simp] theorem setNZ_mem (s : State) (v : Byte) : (setNZ s v).mem = s.mem := rfl
@[simp] theorem setNZ_cfg (s : State) (v : Byte) : (setNZ s v).cfg = s.cfg := rfl

@[simp] theorem addCycles_pc (s : State) (n : Nat) : (addCycles s n).pc = s.pc := rfl
@[simp] theorem addCycles_a (s : State) (n : Nat) : (addCycles s n).a = s.a := rfl
@[simp] theorem addCycles_x (s : State) (n : Nat) : (addCycles s n).x = s.x := rfl
@[simp] theorem addCycles_y (s : State) (n : Nat) : (addCycles s n).y = s.y := rfl
@[simp] theorem addCycles_sp (s : State) (n : Nat) : (addCycles s n).sp = s.sp := rfl
@[simp] theorem addCycles_flags (s : State) (n : Nat) : (addCycles s n).flags = s.flags := rfl
@[simp] theorem addCycles_halted (s : State) (n : Nat) : (addCycles s n).halted = s.halted := rfl
@[simp] theorem addCycles_haltReason (s : State) (n : Nat) : (addCycles s n).haltReason = s.haltReason := rfl
@[simp] theorem addCycles_cycles (s : State) (n : Nat) : (addCycles s n).cycles = s.cycles + n := rfl
@[simp] theorem addCycles_mem (s : State) (n : Nat) : (addCycles s n).mem = s.mem := rfl
@[simp] theorem addCycles_cfg (s : State) (n : Nat) : (addCycles s n).cfg = s.cfg := rfl

@[simp] theorem memWrite_pc (s : State) (addr : Addr) (v : Byte) : (memWrite s addr v).pc = s.pc := rfl
@[simp] theorem memWrite_a (s : State) (addr : Addr) (v : Byte) : (memWrite s addr v).a = s.a := rfl
@[simp] theorem memWrite_x (s : State) (addr : Addr) (v : Byte) : (memWrite s addr v).x = s.x := rfl
@[simp] theorem memWrite_y (s : State) (addr : Addr) (v : Byte) : (memWrite s addr v).y = s.y := rfl
@[simp] theorem memWrite_sp (s : State) (addr : Addr) (v : Byte) : (memWrite s addr v).sp = s.sp := rfl
@[simp] theorem memWrite_flags (s : State) (addr : Addr) (v : Byte) : (memWrite s addr v).flags = s.flags := rfl
@[simp] theorem memWrite_halted (s : State) (addr : Addr) (v : Byte) : (memWrite s addr v).halted = s.halted := rfl
@[simp] theorem memWrite_haltReason (s : State) (addr : Addr) (v : Byte) : (memWrite s addr v).haltReason = s.haltReason := rfl
@[simp] theorem memWrite_cycles (s : State) (addr : Addr) (v : Byte) : (memWrite s addr v).cycles = s.cycles := rfl
@[simp] theorem memWrite_mem (s : State) (addr : Addr) (v : Byte) : (memWrite s addr v).mem = s.mem.write addr.toNat v := rfl
@[simp] theorem memWrite_cfg (s : State) (addr : Addr) (v : Byte) : (memWrite s addr v).cfg = s.cfg := rfl

@[simp] theorem setHalt_pc (s : State) (r : HaltReason) : (setHalt s r).pc = s.pc := rfl
@[simp] theorem setHalt_a (s : State) (r : HaltReason) : (setHalt s r).a = s.a := rfl
@[simp] theorem setHalt_x (s : State) (r : HaltReason) : (setHalt s r).x = s.x := rfl
@[simp] theorem setHalt_y (s : State) (r : HaltReason) : (setHalt s r).y = s.y := rfl
@[simp] theorem setHalt_sp (s : State) (r : HaltReason) : (setHalt s r).sp = s.sp := rfl
@[simp] theorem setHalt_flags (s : State) (r : HaltReason) : (setHalt s r).flags = s.flags := rfl
@[simp] theorem setHalt_halted (s : State) (r : HaltReason) : (setHalt s r).halted = true := rfl
@[simp] theorem setHalt_haltReason (s : State) (r : HaltReason) : (setHalt s r).haltReason = some r := rfl
@[simp] theorem setHalt_cycles (s : State) (r : HaltReason) : (setHalt s r).cycles = s.cycles := rfl
@[simp] theorem setHalt_mem (s : State) (r : HaltReason) : (setHalt s r).mem = s.mem := rfl
@[simp] theorem setHalt_cfg (s : State) (r : HaltReason) : (setHalt s r).cfg = s.cfg := rfl

@[simp] theorem push_pc (s : State) (v : Byte) : (push s v).pc = s.pc := rfl
@[simp] theorem push_a (s : State) (v : Byte) : (push s v).a = s.a := rfl
@[simp] theorem push_x (s : State) (v : Byte) : (push s v).x = s.x := rfl
@[simp] theorem push_y (s : State) (v : Byte) : (push s v).y = s.y := rfl
@[simp] theorem push_sp (s : State) (v : Byte) : (push s v).sp = s.sp - 1 := rfl
@[simp] theorem push_flags (s : State) (v : Byte) : (push s v).flags = s.flags := rfl
@[simp] theorem push_halted (s : State) (v : Byte) : (push s v).halted = s.halted := rfl
@[simp] theorem push_haltReason (s : State) (v : Byte) : (push s v).haltReason = s.haltReason := rfl
@[simp] theorem push_cycles (s : State) (v : Byte) : (push s v).cycles = s.cycles := rfl
@[simp] theorem push_mem (s : State) (v : Byte) : (push s v).mem = s.mem.write (pushAddr s).toNat v := rfl
@[simp] theorem push_cfg (s : State) (v : Byte) : (push s v).cfg = s.cfg := rfl

@[simp] theorem afterPull_pc (s : State) : (afterPull s).pc = s.pc := rfl
@[simp] theorem afterPull_a (s : State) : (afterPull s).a = s.a := rfl
@[simp] theorem afterPull_x (s : State) : (afterPull s).x = s.x := rfl
@[simp] theorem afterPull_y (s : State) : (afterPull s).y = s.y := rfl
@[simp] theorem afterPull_sp (s : State) : (afterPull s).sp = s.sp + 1 := rfl
@[simp] theorem afterPull_flags (s : State) : (afterPull s).flags = s.flags := rfl
@[simp] theorem afterPull_halted (s : State) : (afterPull s).halted = s.halted := rfl
@[simp] theorem afterPull_haltReason (s : State) : (afterPull s).haltReason = s.haltReason := rfl
@[simp] theorem afterPull_cycles (s : State) : (afterPull s).cycles = s.cycles := rfl
@[simp] theorem afterPull_mem (s : State) : (afterPull s).mem = s.mem := rfl
@[simp] theorem afterPull_cfg (s : State) : (afterPull s).cfg = s.cfg := rfl

/-! ### Reading a byte after an update that leaves memory alone -/

@[simp] theorem memRead_setPc (s : State) (v : Addr) (b : Addr) :
    memRead (setPc s v) b = memRead s b := rfl
@[simp] theorem memRead_setA (s : State) (v : Byte) (b : Addr) :
    memRead (setA s v) b = memRead s b := rfl
@[simp] theorem memRead_setX (s : State) (v : Byte) (b : Addr) :
    memRead (setX s v) b = memRead s b := rfl
@[simp] theorem memRead_setY (s : State) (v : Byte) (b : Addr) :
    memRead (setY s v) b = memRead s b := rfl
@[simp] theorem memRead_setSp (s : State) (v : Byte) (b : Addr) :
    memRead (setSp s v) b = memRead s b := rfl
@[simp] theorem memRead_setFlags (s : State) (p : Flags) (b : Addr) :
    memRead (setFlags s p) b = memRead s b := rfl
@[simp] theorem memRead_setNZ (s : State) (v : Byte) (b : Addr) :
    memRead (setNZ s v) b = memRead s b := rfl
@[simp] theorem memRead_addCycles (s : State) (n : Nat) (b : Addr) :
    memRead (addCycles s n) b = memRead s b := rfl
@[simp] theorem memRead_setHalt (s : State) (r : HaltReason) (b : Addr) :
    memRead (setHalt s r) b = memRead s b := rfl
@[simp] theorem memRead_afterPull (s : State) (b : Addr) :
    memRead (afterPull s) b = memRead s b := rfl

/-! ### Flags -/

@[simp] theorem Flags.nz_n (p : Flags) (w : Byte) : (p.nz w).n = w.getLsbD 7 := rfl
@[simp] theorem Flags.nz_v (p : Flags) (w : Byte) : (p.nz w).v = p.v := rfl
@[simp] theorem Flags.nz_d (p : Flags) (w : Byte) : (p.nz w).d = p.d := rfl
@[simp] theorem Flags.nz_i (p : Flags) (w : Byte) : (p.nz w).i = p.i := rfl
@[simp] theorem Flags.nz_z (p : Flags) (w : Byte) : (p.nz w).z = (w == 0#8) := rfl
@[simp] theorem Flags.nz_c (p : Flags) (w : Byte) : (p.nz w).c = p.c := rfl
@[simp] theorem Flags.ofSum_n (p : Flags) (q : Sum) : (p.ofSum q).n = q.n := rfl
@[simp] theorem Flags.ofSum_v (p : Flags) (q : Sum) : (p.ofSum q).v = q.v := rfl
@[simp] theorem Flags.ofSum_d (p : Flags) (q : Sum) : (p.ofSum q).d = p.d := rfl
@[simp] theorem Flags.ofSum_i (p : Flags) (q : Sum) : (p.ofSum q).i = p.i := rfl
@[simp] theorem Flags.ofSum_z (p : Flags) (q : Sum) : (p.ofSum q).z = q.z := rfl
@[simp] theorem Flags.ofSum_c (p : Flags) (q : Sum) : (p.ofSum q).c = q.c := rfl
@[simp] theorem Flags.compare_n (p : Flags) (r m : Byte) : (p.compare r m).n = (r - m).getLsbD 7 := rfl
@[simp] theorem Flags.compare_v (p : Flags) (r m : Byte) : (p.compare r m).v = p.v := rfl
@[simp] theorem Flags.compare_d (p : Flags) (r m : Byte) : (p.compare r m).d = p.d := rfl
@[simp] theorem Flags.compare_i (p : Flags) (r m : Byte) : (p.compare r m).i = p.i := rfl
@[simp] theorem Flags.compare_z (p : Flags) (r m : Byte) : (p.compare r m).z = (r == m) := rfl
@[simp] theorem Flags.compare_c (p : Flags) (r m : Byte) : (p.compare r m).c = decide (r.toNat ≥ m.toNat) := rfl

/-- Unpacking the status byte gives back the six flags (R27, R28). -/
@[simp] theorem Flags.unpack_pack (p : Flags) : Flags.unpack p.pack = p := by
  obtain ⟨n, v, d, i, z, c⟩ := p
  revert n v d i z c
  decide

/-- Bits 5 and 4 of a pushed status byte are 1 (R27). -/
theorem Flags.pack_bits (p : Flags) : p.pack.getLsbD 5 = true ∧ p.pack.getLsbD 4 = true := by
  obtain ⟨n, v, d, i, z, c⟩ := p
  revert n v d i z c
  decide

end Sys2Proof.Machine
end

