-- ==== Sys2Proof/Laws/Ops.lean ====
section
/-! SUPPORT. What each shared operation over memory, the stack and the step's end can do. -/

namespace Sys2Proof

theorem toNat_word (hi lo : Byte) : (word hi lo).toNat = hi.toNat * 256 + lo.toNat := by
  simp only [word, BitVec.toNat_append]
  rw [← Nat.shiftLeft_add_eq_or_of_lt lo.isLt, Nat.shiftLeft_eq]

theorem toNat_highByte (w : Addr) : (highByte w).toNat = w.toNat / 256 := by
  have := w.isLt
  simp [highByte, Nat.shiftRight_eq_div_pow]
  omega

theorem toNat_lowByte (w : Addr) : (lowByte w).toNat = w.toNat % 256 := by
  simp [lowByte]

@[simp] theorem lowByte_word (hi lo : Byte) : lowByte (word hi lo) = lo := by
  have := lo.isLt
  apply BitVec.eq_of_toNat_eq
  rw [toNat_lowByte, toNat_word]
  omega

@[simp] theorem highByte_word (hi lo : Byte) : highByte (word hi lo) = hi := by
  have := lo.isLt
  apply BitVec.eq_of_toNat_eq
  rw [toNat_highByte, toNat_word]
  omega

@[simp] theorem word_high_low (w : Addr) : word (highByte w) (lowByte w) = w := by
  apply BitVec.eq_of_toNat_eq
  rw [toNat_word, toNat_highByte, toNat_lowByte]
  omega

@[simp] theorem toNat_zext16 (b : Byte) : (zext16 b).toNat = b.toNat := by
  have := b.isLt
  simp [zext16]
  omega

end Sys2Proof

namespace Sys2Proof.Machine

/-! ### Memory -/

/-- The byte read after a store (R42, R43, R55). -/
theorem memRead_memWrite (s : State) (a b : Addr) (v : Byte) :
    memRead (memWrite s a v) b = if b = a then v else memRead s b := by
  simp [memRead, memWrite, Memory.read_write, ← BitVec.toNat_inj]

@[simp] theorem memRead_memWrite_same (s : State) (a : Addr) (v : Byte) :
    memRead (memWrite s a v) a = v := by simp [memRead_memWrite]

theorem memRead_memWrite_of_ne (s : State) {a b : Addr} (v : Byte) (h : b ≠ a) :
    memRead (memWrite s a v) b = memRead s b := by simp [memRead_memWrite, h]

theorem memWrite_wf {s : State} (h : s.mem.wf = true) (a : Addr) (v : Byte) :
    (memWrite s a v).mem.wf = true := Memory.write_wf h a.isLt v

/-! ### The stack -/

/-- The stack page is page 1: the byte SP indexes is at 256 + SP (R51). -/
theorem toNat_stackAddr (sp : Byte) : (stackAddr sp).toNat = 256 + sp.toNat := by
  simp [stackAddr, toNat_word]

theorem stackAddr_inj {p q : Byte} : stackAddr p = stackAddr q ↔ p = q := by
  simp [← BitVec.toNat_inj, toNat_stackAddr]

/-- `Push` stores one byte at `pushAddr` and moves SP down (R52). -/
theorem memRead_push (s : State) (v : Byte) (b : Addr) :
    memRead (push s v) b = if b = pushAddr s then v else memRead s b := by
  rw [← memRead_memWrite]; rfl

theorem push_wf {s : State} (h : s.mem.wf = true) (v : Byte) : (push s v).mem.wf = true :=
  memWrite_wf h _ v

/-- `Pull` reads where the last `Push` wrote (R53). -/
@[simp] theorem pullAddr_push (s : State) (v : Byte) : pullAddr (push s v) = pushAddr s := by
  unfold pullAddr pushAddr
  rw [push_cfg, push_sp]
  split <;> simp

/-- The address of the push after the next one differs from the next one's. -/
theorem pushAddr_push_ne (s : State) (v : Byte) : pushAddr (push s v) ≠ pushAddr s := by
  unfold pushAddr
  rw [push_cfg, push_sp]
  split <;> rw [Ne, stackAddr_inj] <;> bv_omega

@[simp] theorem pulled_push (s : State) (v : Byte) : pulled (push s v) = v := by
  simp [pulled, memRead_push]

/-- `Push16` keeps everything but SP and the two stored bytes. -/
@[simp] theorem push16_fields (s : State) (w : Addr) :
    (push16 s w).pc = s.pc ∧ (push16 s w).a = s.a ∧ (push16 s w).x = s.x ∧ (push16 s w).y = s.y ∧
      (push16 s w).sp = s.sp - 2 ∧ (push16 s w).flags = s.flags ∧ (push16 s w).halted = s.halted ∧
      (push16 s w).haltReason = s.haltReason ∧ (push16 s w).cycles = s.cycles ∧
      (push16 s w).cfg = s.cfg := by
  refine ⟨rfl, rfl, rfl, rfl, ?_, rfl, rfl, rfl, rfl, rfl⟩
  show s.sp - 1 - 1 = s.sp - 2
  bv_omega

theorem push16_wf {s : State} (h : s.mem.wf = true) (w : Addr) : (push16 s w).mem.wf = true :=
  push_wf (push_wf h _) _

/-! ### The end of a step -/

/-- `finish` writes PC, the cycle counter and the halt fields, nothing else (R96, R97). -/
theorem finish_keeps (row : OpcodeRow) (cross : Bool) (pc0 : Addr) (out : Report) (s : State) :
    (finish row cross pc0 out s).a = s.a ∧ (finish row cross pc0 out s).x = s.x ∧
      (finish row cross pc0 out s).y = s.y ∧ (finish row cross pc0 out s).sp = s.sp ∧
      (finish row cross pc0 out s).flags = s.flags ∧ (finish row cross pc0 out s).mem = s.mem ∧
      (finish row cross pc0 out s).cfg = s.cfg := by
  unfold finish
  cases out.halt <;> exact ⟨rfl, rfl, rfl, rfl, rfl, rfl, rfl⟩

theorem finish_pc (row : OpcodeRow) (cross : Bool) (pc0 : Addr) (out : Report) (s : State) :
    (finish row cross pc0 out s).pc = out.nextPc.getD (pc0 + BitVec.ofNat 16 row.size) := by
  unfold finish
  cases out.halt <;> rfl

theorem finish_cycles (row : OpcodeRow) (cross : Bool) (pc0 : Addr) (out : Report) (s : State) :
    (finish row cross pc0 out s).cycles =
      s.cycles + (row.cycles + (if row.pen && cross then 1 else 0) + out.extra) := by
  unfold finish
  cases out.halt <;> rfl

theorem finish_halted (row : OpcodeRow) (cross : Bool) (pc0 : Addr) (out : Report) (s : State) :
    (finish row cross pc0 out s).halted = (out.halt.isSome || s.halted) ∧
      (finish row cross pc0 out s).haltReason = out.halt.or s.haltReason := by
  unfold finish
  cases out.halt <;> exact ⟨rfl, rfl⟩

/-- A step that reports no halt ends at the next PC with its cycles counted, and nothing else. -/
theorem finish_no_halt (row : OpcodeRow) (cross : Bool) (pc0 : Addr) (next : Option Addr) (k : Nat)
    (s : State) :
    finish row cross pc0 { nextPc := next, extra := k } s =
      { s with
        pc := next.getD (pc0 + BitVec.ofNat 16 row.size)
        cycles := s.cycles + (row.cycles + (if row.pen && cross then 1 else 0) + k) } := rfl

end Sys2Proof.Machine
end

