-- ==== Sys2Proof/Laws/Driver.lean ====
section
/-! SUPPORT. What the driver's operations do to memory: the image load, MEMORY_INIT, host
writes; and the ends of a run. -/

namespace Sys2Proof.Machine

/-- Loading an image keeps the canonical form (R40, R262). -/
theorem load_wf {m : Memory} (h : m.wf = true) (image : List Byte) (base : Addr) :
    (load m image base).wf = true := by
  induction image generalizing m base with
  | nil => exact h
  | cons v rest ih => exact ih (Memory.write_wf h base.isLt v) _

/-- The cells of a function over rising addresses are in the canonical form. -/
theorem cells_wf (init : Addr → Byte) {l : List Nat} (hp : l.Pairwise (· < ·))
    (hb : ∀ a ∈ l, a < 65536) :
    Memory.wf (l.filterMap fun a => if init (BitVec.ofNat 16 a) = Memory.unlisted then none
      else some (a, init (BitVec.ofNat 16 a))) = true := by
  induction l with
  | nil => rfl
  | cons a l ih =>
    obtain ⟨hlt, hp⟩ := List.pairwise_cons.1 hp
    have hi := ih hp fun b hb' => hb b (List.mem_cons_of_mem _ hb')
    rw [List.filterMap_cons]
    by_cases h : init (BitVec.ofNat 16 a) = Memory.unlisted
    · rw [if_pos h]
      exact hi
    · rw [if_neg h]
      refine (Memory.wf_cons ..).2 ⟨hb a List.mem_cons_self, h, fun c hc => ?_, hi⟩
      obtain ⟨x, hx, hy⟩ := List.mem_filterMap.1 hc
      split at hy
      · cases hy
      · cases hy
        exact hlt x hx

/-- MEMORY_INIT is in the canonical form (R41). -/
theorem memoryOf_wf (init : Addr → Byte) : (memoryOf init).wf = true :=
  cells_wf init List.pairwise_lt_range fun _ h => List.mem_range.1 h

/-- Every address of MEMORY_INIT reads as the function gives it (R9, R41). -/
theorem memoryOf_read (init : Addr → Byte) (a : Addr) : (memoryOf init).read a.toNat = init a := by
  by_cases h : init a = Memory.unlisted
  · rw [h]
    refine Memory.read_unlisted fun c hc e => ?_
    obtain ⟨x, -, hy⟩ := List.mem_filterMap.1 hc
    split at hy
    · cases hy
    · rename_i hne
      rw [← Option.some.inj hy] at e
      have hx : BitVec.ofNat 16 x = a := by
        change x = a.toNat at e
        rw [e]
        simp
      rw [hx] at hne
      exact hne h
  · refine ((Memory.mem_iff (memoryOf_wf init) _ _).1 ?_).2
    have hr : a.toNat ∈ List.range 65536 := List.mem_range.2 (by have := a.isLt; omega)
    have hmem : ∀ l : List Nat, a.toNat ∈ l → (a.toNat, init a) ∈ l.filterMap fun a =>
        if init (BitVec.ofNat 16 a) = Memory.unlisted then none
        else some (a, init (BitVec.ofNat 16 a)) :=
      fun l hl => List.mem_filterMap.2 ⟨a.toNat, hl, by simp [h]⟩
    exact hmem _ hr

/-- A host write stores one byte (R58). -/
theorem memRead_hostWrite (s : State) (a b : Addr) (v : Byte) :
    memRead (hostWrite s a v) b = if b = a then v else memRead s b :=
  memRead_memWrite s a b v

/-- A host write changes memory only (R58). -/
theorem hostWrite_frame (s : State) (a : Addr) (v : Byte) :
    hostWrite s a v = { s with mem := (hostWrite s a v).mem } := rfl

/-- A host write keeps the canonical form. -/
theorem hostWrite_wf {s : State} (h : s.mem.wf = true) (a : Addr) (v : Byte) :
    (hostWrite s a v).mem.wf = true := memWrite_wf h a v

@[simp] theorem hostWrite_halted (s : State) (a : Addr) (v : Byte) :
    (hostWrite s a v).halted = s.halted := rfl

/-- A list of host writes changes memory only. -/
theorem hostWrites_frame (s : State) (ws : List (Addr × Byte)) :
    hostWrites s ws = { s with mem := (hostWrites s ws).mem } := by
  induction ws generalizing s with
  | nil => rfl
  | cons w ws ih => exact ih (hostWrite s w.1 w.2)

/-- Nothing is written or stepped at a halted state (R100). -/
theorem drive_of_halted {s : State} (h : s.halted = true) (wss : List (List (Addr × Byte))) :
    drive wss s = some s := by
  cases wss with
  | nil => rfl
  | cons ws wss => rw [drive, if_pos h]

/-- From a state that is not halted: the host writes, the step, the rest of the run. -/
theorem drive_cons {s t : State} (h : s.halted = false) {ws : List (Addr × Byte)}
    (e : step (hostWrites s ws) = .next t) (wss : List (List (Addr × Byte))) :
    drive (ws :: wss) s = drive wss t := by
  rw [drive, if_neg (by simp [h]), e]
  rfl

end Sys2Proof.Machine
end

