-- ==== Sys2Proof/Laws/Operands.lean ====
section
/-! SUPPORT. What the resolver, the operand helpers and the frame `execute` can do. -/

namespace Sys2Proof.Machine

/-- An operand with a value reads as it; every effective operand but `None` has one (R82). -/
theorem readOperand_isSome {s : State} {eo : EffectiveOperand} (h : eo ≠ .none) :
    ∃ v, readOperand s eo = some v := by
  cases eo <;> simp_all [readOperand]

/-- What a write of an operand does (R82): one byte of memory, or A. -/
theorem writeOperand_eq_some {s t : State} {v : Byte} {eo : EffectiveOperand} :
    writeOperand s v eo = some t ↔
      (∃ ea, eo = .addr ea ∧ t = memWrite s ea v) ∨ (eo = .acc ∧ t = setA s v) := by
  cases eo <;> simp [writeOperand, eq_comm]

/-- The resolver reads X, Y, PC and memory only (R70, R81). -/
theorem resolve_congr {s t : State} (hx : t.x = s.x) (hy : t.y = s.y) (hp : t.pc = s.pc)
    (hm : t.mem = s.mem) (o : Operand) : resolve t o = resolve s o := by
  cases o <;> simp [resolve, indirectWord, zeroPageWord, memRead, hx, hy, hp, hm]

/-- `execute` answers a next state exactly when the table has the form and the body has an effect; the
next state is the body's, finished by the table's entry. -/
theorem execute_eq_next {op : Op} {o : Operand} {body : Body} {s t : State} :
    execute op o body s = .next t ↔
      ∃ row s' out, rowOf op o.mode = some row ∧
        body (resolve s o).1 (resolve s o).2 s = some (s', out) ∧
        t = finish row (resolve s o).2 s.pc out s' := by
  unfold execute
  rcases rowOf op o.mode with _ | row
  · simp
  · rcases body (resolve s o).1 (resolve s o).2 s with _ | ⟨s', out⟩
    · simp
    · simp [eq_comm]

/-- The frame with a known entry and a known effect. -/
theorem execute_of_some {op : Op} {o : Operand} {body : Body} {s s' : State} {row : OpcodeRow}
    {out : Report} (hr : rowOf op o.mode = some row)
    (hb : body (resolve s o).1 (resolve s o).2 s = some (s', out)) :
    execute op o body s = .next (finish row (resolve s o).2 s.pc out s') :=
  execute_eq_next.2 ⟨row, s', out, hr, hb, rfl⟩

/-- `execute` raises no fault. -/
theorem execute_ne_fault (op : Op) (o : Operand) (body : Body) (s : State) (r : Fault) :
    execute op o body s ≠ .fault r := by
  unfold execute
  split <;> simp

/-- A mode that a rule lists for its mnemonic has a row (R65, R102). -/
theorem rowOf_modes {op : Op} {m : Mode} (h : m ∈ op.modes) : ∃ row, rowOf op m = some row := by
  obtain ⟨b, hb⟩ := opcodeOf_modes h
  exact ⟨_, (opcodeOf_sound hb).2.2⟩

end Sys2Proof.Machine
end

