-- ==== Sys2Proof/Laws/Exec.lean ====
section
/-! SUPPORT. One inversion lemma for every instruction: the body each one runs in the frame
`execute`, and what no body touches. -/

namespace Sys2Proof.Machine

/-- What `enterBreak` writes: SP, I and memory. -/
@[simp] theorem enterBreak_fields (s : State) :
    (enterBreak s).pc = s.pc ∧ (enterBreak s).a = s.a ∧ (enterBreak s).x = s.x ∧
      (enterBreak s).y = s.y ∧ (enterBreak s).sp = s.sp - 3 ∧
      (enterBreak s).flags = { s.flags with i := true } ∧ (enterBreak s).halted = s.halted ∧
      (enterBreak s).haltReason = s.haltReason ∧ (enterBreak s).cycles = s.cycles ∧
      (enterBreak s).cfg = s.cfg := by
  simp only [enterBreak, setFlags_pc, setFlags_a, setFlags_x, setFlags_y, setFlags_sp,
    setFlags_flags, setFlags_halted, setFlags_haltReason, setFlags_cycles, setFlags_cfg, push_pc,
    push_a, push_x, push_y, push_sp, push_flags, push_halted, push_haltReason, push_cycles, push_cfg,
    push16_fields, true_and, and_true]
  bv_omega

theorem enterBreak_wf {s : State} (h : s.mem.wf = true) : (enterBreak s).mem.wf = true := by
  rw [enterBreak, setFlags_mem]
  exact push_wf (push16_wf h _) _

/-- What `leaveInterrupt` writes: SP and the flags. -/
theorem leaveInterrupt_eq (s : State) :
    leaveInterrupt s = { s with sp := s.sp + 3, flags := Flags.unpack (pulled s) } := by
  have h : s.sp + 3 = s.sp + 1 + 1 + 1 := by bv_omega
  rw [h]
  rfl

/-- What `afterPull16` writes: SP. -/
theorem afterPull16_eq (s : State) : afterPull16 s = { s with sp := s.sp + 2 } := by
  have h : s.sp + 2 = s.sp + 1 + 1 := by bv_omega
  rw [h]
  rfl

/-- The body of each instruction, as its meaning gives it to `execute`. An illegal slot has none. -/
def bodyOf : Instr → Body
  | .lda _ => loadInto setA
  | .ldx _ => loadInto setX
  | .ldy _ => loadInto setY
  | .sta _ => storeFrom State.a
  | .stx _ => storeFrom State.x
  | .sty _ => storeFrom State.y
  | .adc _ => withOperand fun s m => setSum s (adcSum s m)
  | .sbc _ => withOperand fun s m => setSum s (sbcSum s m)
  | .and _ => combine fun a m => a &&& m
  | .ora _ => combine fun a m => a ||| m
  | .eor _ => combine fun a m => a ^^^ m
  | .bit _ => withOperand fun s m => setFlags s (bitFlags s m)
  | .asl _ => shiftOperand aslByte
  | .lsr _ => shiftOperand lsrByte
  | .rol _ => shiftOperand rolByte
  | .ror _ => shiftOperand rorByte
  | .inc _ => modifyOperand fun m => m + 1
  | .dec _ => modifyOperand fun m => m - 1
  | .inx => setRegNZ setX fun s => s.x + 1
  | .iny => setRegNZ setY fun s => s.y + 1
  | .dex => setRegNZ setX fun s => s.x - 1
  | .dey => setRegNZ setY fun s => s.y - 1
  | .cmp _ => compareWith State.a
  | .cpx _ => compareWith State.x
  | .cpy _ => compareWith State.y
  | .bcc _ => branchIf fun p => !p.c
  | .bcs _ => branchIf fun p => p.c
  | .beq _ => branchIf fun p => p.z
  | .bne _ => branchIf fun p => !p.z
  | .bmi _ => branchIf fun p => p.n
  | .bpl _ => branchIf fun p => !p.n
  | .bvc _ => branchIf fun p => !p.v
  | .bvs _ => branchIf fun p => p.v
  | .jmp _ => jumpTo id
  | .jsr _ => jumpTo fun s => push16 s (s.pc + 2)
  | .rts => fun _ _ s => some (afterPull16 s, { nextPc := some (pulled16 s + 1) })
  | .rti => fun _ _ s => some (leaveInterrupt s, { nextPc := some (interruptReturn s) })
  | .pha => plain fun s => push s s.a
  | .php => plain fun s => push s s.flags.pack
  | .pla => plain fun s => setNZ (setA (afterPull s) (pulled s)) (pulled s)
  | .plp => plain fun s => setFlags (afterPull s) (Flags.unpack (pulled s))
  | .clc => changeFlags fun p => { p with c := false }
  | .sec => changeFlags fun p => { p with c := true }
  | .cld => changeFlags fun p => { p with d := false }
  | .sed => changeFlags fun p => { p with d := true }
  | .cli => changeFlags fun p => { p with i := false }
  | .sei => changeFlags fun p => { p with i := true }
  | .clv => changeFlags fun p => { p with v := false }
  | .tax => transfer State.a setX
  | .txa => transfer State.x setA
  | .tay => transfer State.a setY
  | .tya => transfer State.y setA
  | .tsx => transfer State.sp setX
  | .txs => plain fun s => setSp s s.x
  | .nop => plain fun s => s
  | .brk => fun _ _ s => some (enterBreak s, breakReport s.pc (enterBreak s))
  | .illegal _ => fun _ _ _ => none

/-- Every legal instruction runs its body in the frame. -/
theorem exec_eq_execute {i : Instr} (h : i.op ≠ .illegal) (s : State) :
    exec i s = execute i.op i.operand (bodyOf i) s := by
  cases i <;> first | rfl | exact absurd rfl h

/-- Everything an instruction can do when it answers a next state: an illegal slot raises
IllegalOpcode; any other instruction applies its body and ends by its table entry. -/
theorem exec_cases {i : Instr} {s t : State} (h : exec i s = .next t) :
    (∃ raw, i = .illegal raw ∧ (opcodeRow raw).op = .illegal ∧ t = raiseIllegalOpcode s raw) ∨
      (i.op ≠ .illegal ∧ ∃ row s' out, rowOf i.op i.mode = some row ∧
        bodyOf i (resolve s i.operand).1 (resolve s i.operand).2 s = some (s', out) ∧
        t = finish row (resolve s i.operand).2 s.pc out s') := by
  by_cases hi : i.op = .illegal
  · left
    obtain ⟨raw, rfl⟩ : ∃ raw, i = .illegal raw := by cases i <;> simp_all [Instr.op]
    rw [exec, execIllegal] at h
    split at h
    · exact ⟨raw, rfl, ‹_›, (Host.Outcome.next.inj h).symm⟩
    · cases h
  · right
    rw [exec_eq_execute hi] at h
    exact ⟨hi, execute_eq_next.1 h⟩

/-! ### What each kind of body can do -/

theorem withOperand_eq_some {f : State → Byte → State} {eo : EffectiveOperand} {cross : Bool}
    {s s' : State} {out : Report} : withOperand f eo cross s = some (s', out) ↔
      ∃ m, readOperand s eo = some m ∧ s' = f s m ∧ out = {} := by
  simp [withOperand, eq_comm]

theorem storeFrom_eq_some {reg : State → Byte} {eo : EffectiveOperand} {cross : Bool}
    {s s' : State} {out : Report} : storeFrom reg eo cross s = some (s', out) ↔
      ((∃ ea, eo = .addr ea ∧ s' = memWrite s ea (reg s)) ∨ (eo = .acc ∧ s' = setA s (reg s))) ∧
        out = {} := by
  simp only [storeFrom, Option.map_eq_some_iff, writeOperand_eq_some, Prod.mk.injEq]
  constructor
  · rintro ⟨u, hu, rfl, rfl⟩; exact ⟨hu, rfl⟩
  · rintro ⟨hu, rfl⟩; exact ⟨_, hu, rfl, rfl⟩

theorem modifyOperand_eq_some {f : Byte → Byte} {eo : EffectiveOperand} {cross : Bool}
    {s s' : State} {out : Report} : modifyOperand f eo cross s = some (s', out) ↔
      ((∃ ea, eo = .addr ea ∧
          s' = setNZ (memWrite s ea (f (memRead s ea))) (f (memRead s ea))) ∨
        (eo = .acc ∧ s' = setNZ (setA s (f s.a)) (f s.a))) ∧ out = {} := by
  cases eo <;> simp [modifyOperand, readOperand, writeOperand, eq_comm]

theorem shiftOperand_eq_some {f : Bool → Byte → Byte × Bool} {eo : EffectiveOperand}
    {cross : Bool} {s s' : State} {out : Report} :
    shiftOperand f eo cross s = some (s', out) ↔
      ((∃ ea, eo = .addr ea ∧
          s' = setNZ (setFlags (memWrite s ea (f s.flags.c (memRead s ea)).1)
            { s.flags with c := (f s.flags.c (memRead s ea)).2 }) (f s.flags.c (memRead s ea)).1) ∨
        (eo = .acc ∧ s' = setNZ (setFlags (setA s (f s.flags.c s.a).1)
            { s.flags with c := (f s.flags.c s.a).2 }) (f s.flags.c s.a).1)) ∧ out = {} := by
  cases eo <;> simp [shiftOperand, readOperand, writeOperand, eq_comm]

theorem branchIf_eq_some {cond : Flags → Bool} {eo : EffectiveOperand} {cross : Bool}
    {s s' : State} {out : Report} : branchIf cond eo cross s = some (s', out) ↔
      ∃ target, eo = .addr target ∧ s' = s ∧
        out = if cond s.flags then { nextPc := some target, extra := 1 + cross.toNat } else {} := by
  cases eo <;> simp only [branchIf, reduceCtorEq, false_and, exists_false, EffectiveOperand.addr.injEq,
    exists_eq_left']
  split <;> simp [eq_comm]

theorem jumpTo_eq_some {f : State → State} {eo : EffectiveOperand} {cross : Bool}
    {s s' : State} {out : Report} : jumpTo f eo cross s = some (s', out) ↔
      ∃ ea, eo = .addr ea ∧ s' = f s ∧ out = { nextPc := some ea } := by
  cases eo <;> simp [jumpTo, eq_comm]

theorem plain_eq_some {f : State → State} {eo : EffectiveOperand} {cross : Bool}
    {s s' : State} {out : Report} : plain f eo cross s = some (s', out) ↔ s' = f s ∧ out = {} := by
  simp [plain, eq_comm]

/-- What no body touches: PC, the cycle counter, the halt fields and the parameters; and memory in
its canonical form stays in it. -/
def Untouched (s s' : State) : Prop :=
  s'.pc = s.pc ∧ s'.cycles = s.cycles ∧ s'.halted = s.halted ∧ s'.haltReason = s.haltReason ∧
    s'.cfg = s.cfg ∧ (s.mem.wf = true → s'.mem.wf = true)

theorem storeFrom_untouched {reg : State → Byte} {eo : EffectiveOperand} {cross : Bool}
    {s s' : State} {out : Report} (h : storeFrom reg eo cross s = some (s', out)) :
    Untouched s s' := by
  rcases storeFrom_eq_some.1 h with ⟨⟨ea, -, rfl⟩ | ⟨-, rfl⟩, -⟩
  · exact ⟨rfl, rfl, rfl, rfl, rfl, fun hw => memWrite_wf hw _ _⟩
  · exact ⟨rfl, rfl, rfl, rfl, rfl, id⟩

theorem modifyOperand_untouched {f : Byte → Byte} {eo : EffectiveOperand} {cross : Bool}
    {s s' : State} {out : Report} (h : modifyOperand f eo cross s = some (s', out)) :
    Untouched s s' := by
  rcases modifyOperand_eq_some.1 h with ⟨⟨ea, -, rfl⟩ | ⟨-, rfl⟩, -⟩
  · exact ⟨rfl, rfl, rfl, rfl, rfl, fun hw => memWrite_wf hw _ _⟩
  · exact ⟨rfl, rfl, rfl, rfl, rfl, id⟩

theorem shiftOperand_untouched {f : Bool → Byte → Byte × Bool} {eo : EffectiveOperand}
    {cross : Bool} {s s' : State} {out : Report}
    (h : shiftOperand f eo cross s = some (s', out)) : Untouched s s' := by
  rcases shiftOperand_eq_some.1 h with ⟨⟨ea, -, rfl⟩ | ⟨-, rfl⟩, -⟩
  · exact ⟨rfl, rfl, rfl, rfl, rfl, fun hw => memWrite_wf hw _ _⟩
  · exact ⟨rfl, rfl, rfl, rfl, rfl, id⟩

/-- No body touches PC, the cycle counter, the halt fields or the parameters. -/
theorem bodyOf_untouched {i : Instr} {eo : EffectiveOperand} {cross : Bool} {s s' : State}
    {out : Report} (h : bodyOf i eo cross s = some (s', out)) : Untouched s s' := by
  cases i <;> simp only [bodyOf, loadInto, combine, compareWith, transfer, setRegNZ, changeFlags,
    withOperand_eq_some, branchIf_eq_some, jumpTo_eq_some, plain_eq_some, Option.some.injEq,
    Prod.mk.injEq, reduceCtorEq] at h
  case sta | stx | sty => exact storeFrom_untouched h
  case inc | dec => exact modifyOperand_untouched h
  case asl | lsr | rol | ror => exact shiftOperand_untouched h
  case bcc | bcs | beq | bne | bmi | bpl | bvc | bvs | jmp =>
    obtain ⟨_, -, rfl, -⟩ := h
    exact ⟨rfl, rfl, rfl, rfl, rfl, id⟩
  case jsr =>
    obtain ⟨_, -, rfl, -⟩ := h
    exact ⟨rfl, rfl, rfl, rfl, rfl, fun hw => push16_wf hw _⟩
  case pha | php =>
    obtain ⟨rfl, -⟩ := h
    exact ⟨rfl, rfl, rfl, rfl, rfl, fun hw => push_wf hw _⟩
  case brk =>
    obtain ⟨rfl, -⟩ := h
    obtain ⟨h1, -, -, -, -, -, h2, h3, h4, h5⟩ := enterBreak_fields s
    exact ⟨h1, h4, h2, h3, h5, enterBreak_wf⟩
  case lda | ldx | ldy | adc | sbc | and | ora | eor | bit | cmp | cpx | cpy =>
    obtain ⟨_, -, rfl, -⟩ := h
    exact ⟨rfl, rfl, rfl, rfl, rfl, id⟩
  all_goals
    obtain ⟨rfl, -⟩ := h
    exact ⟨rfl, rfl, rfl, rfl, rfl, id⟩

/-- Which bodies ask for a halt: BRK's in `Halt` mode only (R30, R214). -/
theorem bodyOf_halt {i : Instr} {eo : EffectiveOperand} {cross : Bool} {s s' : State}
    {out : Report} (h : bodyOf i eo cross s = some (s', out)) :
    out.halt = if i.op = .brk ∧ s.cfg.brkMode = .halt then some (.brk s.pc) else none := by
  cases i <;> simp only [bodyOf, loadInto, combine, compareWith, transfer, setRegNZ, changeFlags,
    withOperand_eq_some, branchIf_eq_some, jumpTo_eq_some, plain_eq_some, storeFrom_eq_some,
    modifyOperand_eq_some, shiftOperand_eq_some, Option.some.injEq, Prod.mk.injEq, reduceCtorEq] at h
  case brk =>
    obtain ⟨-, rfl⟩ := h
    rw [breakReport, (enterBreak_fields s).2.2.2.2.2.2.2.2.2]
    cases s.cfg.brkMode <;> rfl
  case bcc | bcs | beq | bne | bmi | bpl | bvc | bvs =>
    obtain ⟨_, -, -, rfl⟩ := h
    split <;> rfl
  case jmp | jsr | lda | ldx | ldy | adc | sbc | and | ora | eor | bit | cmp | cpx | cpy =>
    obtain ⟨_, -, -, rfl⟩ := h
    rfl
  case rts | rti =>
    obtain ⟨-, rfl⟩ := h
    rfl
  all_goals
    rw [h.2]
    rfl

end Sys2Proof.Machine
end

