-- ==== Sys2Proof/Laws/Forms.lean ====
section
/-! SUPPORT. The bit operations of the model in the numbers that Safety's terms use, the stack slots,
and the frame `execute` in the shape of a rule's encoding entry. -/

namespace Sys2Proof.Machine

/-! ### Bits as numbers -/

theorem getLsbD_7 (v : Byte) : v.getLsbD 7 = decide (v.toNat ≥ 128) := by
  have := v.isLt
  rw [BitVec.getLsbD, Nat.testBit_eq_decide_div_mod_eq]
  simp
  omega

theorem getLsbD_6 (v : Byte) : v.getLsbD 6 = decide (v.toNat % 128 ≥ 64) := by
  have := v.isLt
  rw [BitVec.getLsbD, Nat.testBit_eq_decide_div_mod_eq]
  simp
  omega

theorem getLsbD_0 (v : Byte) : v.getLsbD 0 = decide (v.toNat % 2 = 1) := by
  rw [BitVec.getLsbD, Nat.testBit_eq_decide_div_mod_eq]
  simp

theorem nz_eq_flagsNZ (p : Flags) (v : Byte) : p.nz v = flagsNZ p v := by
  rw [Flags.nz, flagsNZ, getLsbD_7]
  rfl

theorem compare_eq_compareFlags (p : Flags) (r m : Byte) : p.compare r m = compareFlags p r m := by
  have := r.isLt
  have := m.isLt
  have h : decide ((r - m).toNat ≥ 128) = decide ((r.toNat + 256 - m.toNat) % 256 ≥ 128) := by
    rw [BitVec.toNat_sub]
    congr 2
    simp
    omega
  rw [Flags.compare, compareFlags, getLsbD_7, h]
  rfl

theorem word_eq_ofNat (hi lo : Byte) :
    word hi lo = BitVec.ofNat 16 (256 * hi.toNat + lo.toNat) := by
  have := hi.isLt
  have := lo.isLt
  apply BitVec.eq_of_toNat_eq
  rw [toNat_word]
  simp
  omega

theorem zext16_eq_ofNat (b : Byte) : zext16 b = BitVec.ofNat 16 b.toNat := by
  have := b.isLt
  apply BitVec.eq_of_toNat_eq
  rw [toNat_zext16]
  simp
  omega

theorem pageCross_eq (p q : Addr) : pageCross p q = decide (p.toNat / 256 ≠ q.toNat / 256) := by
  rw [pageCross, Bool.eq_iff_iff]
  simp only [bne_iff_ne, ne_eq, ← BitVec.toNat_inj, toNat_highByte, decide_eq_true_eq]

/-- The branch target in numbers: the next instruction plus the signed displacement (R77). -/
theorem toNat_branchTarget (pc : Addr) (disp : Byte) :
    ((pc + 2 + sext16 disp).toNat : Int) = (pc.toNat + 2 + disp.toInt) % 65536 := by
  have h := BitVec.toInt_signExtend_of_le (x := disp) (v := 16) (by omega)
  have h2 := BitVec.toInt_eq_toNat_bmod (sext16 disp)
  rw [sext16] at *
  rw [h] at h2
  rw [BitVec.toNat_add, BitVec.toNat_add]
  have h3 : ((BitVec.signExtend 16 disp).toNat : Int) % 65536 = disp.toInt % 65536 := by
    rw [h2]
    simp only [Int.bmod_def]
    split <;> omega
  push_cast
  simp
  omega

/-- Masking the high byte. -/
theorem and_FF00 (w : Addr) : w &&& 0xFF00#16 = word (highByte w) 0 := by
  conv_lhs => rw [← word_high_low w]
  generalize highByte w = hi
  generalize lowByte w = lo
  have h : (0xFF00#16) = (BitVec.allOnes 8 ++ 0x00#8 : BitVec 16) := by decide
  rw [word, h, BitVec.and_append, BitVec.and_allOnes]
  simp [word]

/-- Masking the low byte. -/
theorem and_00FF (w : Addr) : w &&& 0x00FF#16 = word 0 (lowByte w) := by
  conv_lhs => rw [← word_high_low w]
  generalize highByte w = hi
  generalize lowByte w = lo
  have h : (0x00FF#16) = (0x00#8 ++ BitVec.allOnes 8 : BitVec 16) := by decide
  rw [word, h, BitVec.and_append, BitVec.and_allOnes]
  simp [word]

/-- The address of a JMP pointer's high byte: the next byte of the same page (R76). -/
theorem indirect_high (ptr : Addr) : (ptr &&& 0xFF00#16) ||| ((ptr + 1) &&& 0x00FF#16) =
    BitVec.ofNat 16 (ptr.toNat / 256 * 256 + (ptr.toNat + 1) % 256) := by
  have hor : word (highByte ptr) 0 ||| word 0 (lowByte (ptr + 1)) =
      word (highByte ptr) (lowByte (ptr + 1)) := by
    simp only [word]
    rw [BitVec.or_append]
    simp
  have := ptr.isLt
  rw [and_FF00, and_00FF, hor]
  apply BitVec.eq_of_toNat_eq
  rw [toNat_word, toNat_highByte, toNat_lowByte]
  simp [BitVec.toNat_add]
  omega

/-! ### The status byte -/

theorem pack_eq_statusByte (p : Flags) : p.pack = statusByte p := by
  obtain ⟨n, v, d, i, z, c⟩ := p
  revert n v d i z c
  decide

theorem statusByte_unpack : ∀ b : Byte, statusByte (Flags.unpack b) = b ||| 0x30#8 := by
  decide +kernel

/-! ### Stack slots -/

theorem stackAddr_eq_ofNat (sp : Byte) : stackAddr sp = BitVec.ofNat 16 (0x100 + sp.toNat) := by
  have := sp.isLt
  apply BitVec.eq_of_toNat_eq
  rw [toNat_stackAddr]
  simp
  omega

theorem sub_one_one (b : Byte) : b - 1 - 1 = b - 2 := by bv_omega
theorem sub_one_one_one (b : Byte) : b - 1 - 1 - 1 = b - 3 := by bv_omega
theorem add_one_one (b : Byte) : b + 1 + 1 = b + 2 := by bv_omega
theorem add_one_one_one (b : Byte) : b + 1 + 1 + 1 = b + 3 := by bv_omega

/-- The first push goes to slot 0. -/
theorem pushAddr_eq (s : State) : pushAddr s = pushSlot s 0 := by
  cases h : s.cfg.stackOrder <;> simp [pushAddr, pushSlot, h, stackAddr_eq_ofNat]

/-- The second push goes to slot 1. -/
theorem pushAddr_push (s : State) (v : Byte) : pushAddr (push s v) = pushSlot s 1 := by
  cases h : s.cfg.stackOrder <;>
    simp only [pushAddr, pushSlot, push_cfg, push_sp, h, stackAddr_eq_ofNat, sub_one_one] <;> rfl

/-- The third push goes to slot 2. -/
theorem pushAddr_push_push (s : State) (v w : Byte) :
    pushAddr (push (push s v) w) = pushSlot s 2 := by
  cases h : s.cfg.stackOrder <;>
    simp only [pushAddr, pushSlot, push_cfg, push_sp, h, stackAddr_eq_ofNat, sub_one_one_one] <;>
    (try rw [sub_one_one]) <;> rfl

/-- The first pull reads slot 0. -/
theorem pullAddr_eq (s : State) : pullAddr s = pullSlot s 0 := by
  cases h : s.cfg.stackOrder <;> simp [pullAddr, pullSlot, h, stackAddr_eq_ofNat]

/-- The second pull reads slot 1. -/
theorem pullAddr_afterPull (s : State) : pullAddr (afterPull s) = pullSlot s 1 := by
  cases h : s.cfg.stackOrder <;>
    simp only [pullAddr, pullSlot, afterPull_cfg, afterPull_sp, h, stackAddr_eq_ofNat, add_one_one] <;>
    rfl

/-- The third pull reads slot 2. -/
theorem pullAddr_afterPull_afterPull (s : State) :
    pullAddr (afterPull (afterPull s)) = pullSlot s 2 := by
  cases h : s.cfg.stackOrder <;>
    simp only [pullAddr, pullSlot, afterPull_cfg, afterPull_sp, h, stackAddr_eq_ofNat,
      add_one_one_one] <;>
    (try rw [add_one_one]) <;> rfl

/-- The next three stack bytes are three addresses. -/
theorem pushSlot_ne (s : State) : pushSlot s 0 ≠ pushSlot s 1 ∧ pushSlot s 0 ≠ pushSlot s 2 ∧
    pushSlot s 1 ≠ pushSlot s 2 := by
  have h01 := pushAddr_push_ne s 0
  have h12 := pushAddr_push_ne (push s 0) 0
  rw [pushAddr_push, pushAddr_eq] at h01
  rw [pushAddr_push_push, pushAddr_push] at h12
  refine ⟨h01.symm, ?_, h12.symm⟩
  rw [← pushAddr_eq, ← pushAddr_push_push s 0 0]
  unfold pushAddr
  simp only [push_cfg, push_sp]
  split <;> rw [Ne, stackAddr_inj] <;> bv_omega

/-- Memory after `Push16` (R54). -/
theorem memRead_push16 (s : State) (w b : Addr) : memRead (push16 s w) b =
    if b = pushSlot s 0 then highByte w
    else if b = pushSlot s 1 then lowByte w else memRead s b := by
  rw [push16, memRead_push, pushAddr_push, memRead_push, pushAddr_eq]
  have := (pushSlot_ne s).1
  split_ifs <;> simp_all

/-- Memory after the break entry (R214). -/
theorem memRead_enterBreak (s : State) (b : Addr) : memRead (enterBreak s) b =
    if b = pushSlot s 0 then highByte (s.pc + 2)
    else if b = pushSlot s 1 then lowByte (s.pc + 2)
    else if b = pushSlot s 2 then statusByte s.flags else memRead s b := by
  have hlast : memRead (enterBreak s) b =
      if b = pushSlot s 2 then statusByte s.flags else memRead (push16 s (s.pc + 2)) b := by
    rw [← pushAddr_push_push s (highByte (s.pc + 2)) (lowByte (s.pc + 2)), ← pack_eq_statusByte]
    exact memRead_push _ _ _
  obtain ⟨-, h02, h12⟩ := pushSlot_ne s
  rw [hlast, memRead_push16]
  by_cases k0 : b = pushSlot s 0
  · rw [if_pos k0, if_pos k0, if_neg (k0 ▸ h02)]
  · rw [if_neg k0, if_neg k0]
    by_cases k1 : b = pushSlot s 1
    · rw [if_pos k1, if_pos k1, if_neg (k1 ▸ h12)]
    · rw [if_neg k1, if_neg k1]

/-! ### The frame in the shape of a rule's encoding entry -/

/-- `execute` of a form with a known opcode and a known effect. -/
theorem execute_of_opcode {op : Op} {o : Operand} {body : Body} {s s' : State} {code : Byte}
    {row : OpcodeRow} {out : Report} (h1 : opcodeOf op o.mode = some code)
    (h2 : opcodeRow code = row)
    (hb : body (resolve s o).1 (resolve s o).2 s = some (s', out)) :
    execute op o body s = .next (finish row (resolve s o).2 s.pc out s') := by
  have hr := (opcodeOf_sound h1).2.2
  rw [h2] at hr
  exact execute_of_some hr hb

/-- `execute` of a form whose body reports nothing ends `past` the form (R96, R97). -/
theorem execute_past {op : Op} {o : Operand} {body : Body} {s s' : State} {f : Form}
    (h1 : opcodeOf op o.mode = some f.opcode)
    (h2 : opcodeRow f.opcode = ⟨op, f.size, f.cycles, o.mode, f.pen⟩)
    (hb : body (resolve s o).1 (resolve s o).2 s = some (s', {})) (hc : s'.cycles = s.cycles) :
    execute op o body s = .next (past f (resolve s o).2 s s') := by
  rw [execute_of_opcode h1 h2 hb, finish_no_halt, past]
  simp [hc, Nat.add_assoc]

end Sys2Proof.Machine
end

