-- ==== Sys2Proof/Laws/PerInstr.lean ====
section
/-! SUPPORT. Statements made per instruction, one lemma per constructor of Instr. -/

namespace Sys2Proof.Laws.Encoding

/-- A well-formed instruction's bytes are its opcode and its operand bytes, and the table's entry of
that opcode has the instruction's mnemonic and mode. -/
def Statement (i : Instr) : Prop :=
  i.wellFormed = true →
    ∃ b, encode i = b :: i.operand.bytes ∧ (opcodeRow b).op = i.op ∧ (opcodeRow b).mode = i.mode ∧
      rowOf i.op i.mode = some (opcodeRow b)

theorem lda (o : Operand) : Statement (.lda o) := encode_head
theorem ldx (o : Operand) : Statement (.ldx o) := encode_head
theorem ldy (o : Operand) : Statement (.ldy o) := encode_head
theorem sta (o : Operand) : Statement (.sta o) := encode_head
theorem stx (o : Operand) : Statement (.stx o) := encode_head
theorem sty (o : Operand) : Statement (.sty o) := encode_head
theorem adc (o : Operand) : Statement (.adc o) := encode_head
theorem sbc (o : Operand) : Statement (.sbc o) := encode_head
theorem and (o : Operand) : Statement (.and o) := encode_head
theorem ora (o : Operand) : Statement (.ora o) := encode_head
theorem eor (o : Operand) : Statement (.eor o) := encode_head
theorem bit (o : Operand) : Statement (.bit o) := encode_head
theorem asl (o : Operand) : Statement (.asl o) := encode_head
theorem lsr (o : Operand) : Statement (.lsr o) := encode_head
theorem rol (o : Operand) : Statement (.rol o) := encode_head
theorem ror (o : Operand) : Statement (.ror o) := encode_head
theorem inc (o : Operand) : Statement (.inc o) := encode_head
theorem dec (o : Operand) : Statement (.dec o) := encode_head
theorem inx : Statement (.inx) := encode_head
theorem iny : Statement (.iny) := encode_head
theorem dex : Statement (.dex) := encode_head
theorem dey : Statement (.dey) := encode_head
theorem cmp (o : Operand) : Statement (.cmp o) := encode_head
theorem cpx (o : Operand) : Statement (.cpx o) := encode_head
theorem cpy (o : Operand) : Statement (.cpy o) := encode_head
theorem bcc (disp : Byte) : Statement (.bcc disp) := encode_head
theorem bcs (disp : Byte) : Statement (.bcs disp) := encode_head
theorem beq (disp : Byte) : Statement (.beq disp) := encode_head
theorem bne (disp : Byte) : Statement (.bne disp) := encode_head
theorem bmi (disp : Byte) : Statement (.bmi disp) := encode_head
theorem bpl (disp : Byte) : Statement (.bpl disp) := encode_head
theorem bvc (disp : Byte) : Statement (.bvc disp) := encode_head
theorem bvs (disp : Byte) : Statement (.bvs disp) := encode_head
theorem jmp (o : Operand) : Statement (.jmp o) := encode_head
theorem jsr (target : Addr) : Statement (.jsr target) := encode_head
theorem rts : Statement (.rts) := encode_head
theorem rti : Statement (.rti) := encode_head
theorem pha : Statement (.pha) := encode_head
theorem php : Statement (.php) := encode_head
theorem pla : Statement (.pla) := encode_head
theorem plp : Statement (.plp) := encode_head
theorem clc : Statement (.clc) := encode_head
theorem sec : Statement (.sec) := encode_head
theorem cld : Statement (.cld) := encode_head
theorem sed : Statement (.sed) := encode_head
theorem cli : Statement (.cli) := encode_head
theorem sei : Statement (.sei) := encode_head
theorem clv : Statement (.clv) := encode_head
theorem tax : Statement (.tax) := encode_head
theorem txa : Statement (.txa) := encode_head
theorem tay : Statement (.tay) := encode_head
theorem tya : Statement (.tya) := encode_head
theorem tsx : Statement (.tsx) := encode_head
theorem txs : Statement (.txs) := encode_head
theorem nop : Statement (.nop) := encode_head
theorem brk : Statement (.brk) := encode_head
theorem illegal (raw : Byte) : Statement (.illegal raw) := encode_head

end Sys2Proof.Laws.Encoding
end

