-- ==== Sys2Proof/Tests/Slice0.lean ====
section
/-! SUPPORT. Tests of the model: ill-formed terms, words of the spec's encodings, one step each of the
spec's own test vectors (95_test_vectors.md, whose values are expected here), and for each statement
with hypotheses a witness that meets them. -/

namespace Sys2Proof.Tests

open Sys2Proof.Machine

/-! ### Helpers -/

/-- The six flags in the order of 95_test_vectors.md's notation. -/
def fl (n v d i z c : Nat) : Flags := ⟨n == 1, v == 1, d == 1, i == 1, z == 1, c == 1⟩

/-- "Start (all else 0)" with the PC given. -/
def startAt (pc : Addr) : State := { State.reset with pc := pc }

/-- A memory with the bytes given. -/
def cells (l : List (Addr × Byte)) : Memory := l.foldl (fun m c => m.write c.1.toNat c.2) []

/-- One step of a state with the bytes given at its PC. -/
def go (s : State) (bytes : List Byte) : Option State :=
  nextOf (step { s with mem := load s.mem bytes s.pc })

/-! ### WellFormed refuses what is no instruction -/

/-- No mode of another mnemonic (R102): a store has no immediate form. -/
theorem test_sta_immediate_ill_formed : (Instr.sta (.immediate 1#8)).wellFormed = false := by decide

/-- JMP has no zero-page form. -/
theorem test_jmp_zeroPage_ill_formed : (Instr.jmp (.zeroPage 1#8)).wellFormed = false := by decide

/-- LDX is indexed by Y only. -/
theorem test_ldx_zeroPageX_ill_formed : (Instr.ldx (.zeroPageX 1#8)).wellFormed = false := by decide

/-- An illegal slot carries an illegal byte: 0xA9 is LDA. -/
theorem test_illegal_legal_byte_ill_formed : (Instr.illegal 0xA9#8).wellFormed = false := by decide

/-- The terms above have no bytes. -/
theorem test_ill_formed_no_bytes : encode (.sta (.immediate 1#8)) = [] ∧
    encode (.illegal 0xA9#8) = [] := by decide +kernel

/-- The terms above are refused by name. -/
theorem test_ill_formed_refused :
    exec (.sta (.immediate 1#8)) State.reset = .refused (.noSuchForm .sta .immediate) ∧
      exec (.illegal 0xA9#8) State.reset = .refused (.noSuchForm .illegal .implied) := ⟨rfl, rfl⟩

/-! ### Words of the spec's encodings (R60, R65) decode to the instructions they stand for -/

theorem test_decode_load_store :
    decode 0xA9#8 0x05#8 0x00#8 = .lda (.immediate 0x05#8) ∧
    decode 0xB6#8 0xF0#8 0x00#8 = .ldx (.zeroPageY 0xF0#8) ∧
    decode 0xBC#8 0xFF#8 0x10#8 = .ldy (.absoluteX 0x10FF#16) ∧
    decode 0x91#8 0x20#8 0x00#8 = .sta (.indirectY 0x20#8) ∧
    decode 0x8E#8 0x00#8 0x03#8 = .stx (.absolute 0x0300#16) ∧
    decode 0x94#8 0x10#8 0x00#8 = .sty (.zeroPageX 0x10#8) := by decide

theorem test_decode_arithmetic :
    decode 0x61#8 0x20#8 0x00#8 = .adc (.indirectX 0x20#8) ∧
    decode 0xF9#8 0xFF#8 0x20#8 = .sbc (.absoluteY 0x20FF#16) := by decide

theorem test_decode_logical :
    decode 0x31#8 0x20#8 0x00#8 = .and (.indirectY 0x20#8) ∧
    decode 0x09#8 0x80#8 0x00#8 = .ora (.immediate 0x80#8) ∧
    decode 0x45#8 0x44#8 0x00#8 = .eor (.zeroPage 0x44#8) ∧
    decode 0x2C#8 0x00#8 0x03#8 = .bit (.absolute 0x0300#16) := by decide

theorem test_decode_shift :
    decode 0x0A#8 0x00#8 0x00#8 = .asl .accumulator ∧
    decode 0x4E#8 0x00#8 0x03#8 = .lsr (.absolute 0x0300#16) ∧
    decode 0x36#8 0xFF#8 0x00#8 = .rol (.zeroPageX 0xFF#8) ∧
    decode 0x7E#8 0xFF#8 0x02#8 = .ror (.absoluteX 0x02FF#16) := by decide

theorem test_decode_inc_dec :
    decode 0xE6#8 0x10#8 0x00#8 = .inc (.zeroPage 0x10#8) ∧
    decode 0xDE#8 0xFF#8 0x02#8 = .dec (.absoluteX 0x02FF#16) ∧
    decode 0xE8#8 0x00#8 0x00#8 = .inx ∧ decode 0xC8#8 0x00#8 0x00#8 = .iny ∧
    decode 0xCA#8 0x00#8 0x00#8 = .dex ∧ decode 0x88#8 0x00#8 0x00#8 = .dey := by decide

theorem test_decode_compare :
    decode 0xC1#8 0x20#8 0x00#8 = .cmp (.indirectX 0x20#8) ∧
    decode 0xE4#8 0x10#8 0x00#8 = .cpx (.zeroPage 0x10#8) ∧
    decode 0xCC#8 0x00#8 0x03#8 = .cpy (.absolute 0x0300#16) := by decide

theorem test_decode_branch :
    decode 0x90#8 0x02#8 0x00#8 = .bcc 0x02#8 ∧ decode 0xB0#8 0x7F#8 0x00#8 = .bcs 0x7F#8 ∧
    decode 0xF0#8 0x02#8 0x00#8 = .beq 0x02#8 ∧ decode 0xD0#8 0xFC#8 0x00#8 = .bne 0xFC#8 ∧
    decode 0x30#8 0x80#8 0x00#8 = .bmi 0x80#8 ∧ decode 0x10#8 0x7F#8 0x00#8 = .bpl 0x7F#8 ∧
    decode 0x50#8 0x10#8 0x00#8 = .bvc 0x10#8 ∧ decode 0x70#8 0x02#8 0x00#8 = .bvs 0x02#8 := by
  decide

theorem test_decode_jump_stack :
    decode 0x6C#8 0xFF#8 0x02#8 = .jmp (.indirect 0x02FF#16) ∧
    decode 0x20#8 0x34#8 0x12#8 = .jsr 0x1234#16 ∧
    decode 0x60#8 0x00#8 0x00#8 = .rts ∧ decode 0x40#8 0x00#8 0x00#8 = .rti ∧
    decode 0x48#8 0x00#8 0x00#8 = .pha ∧ decode 0x08#8 0x00#8 0x00#8 = .php ∧
    decode 0x68#8 0x00#8 0x00#8 = .pla ∧ decode 0x28#8 0x00#8 0x00#8 = .plp := by decide

theorem test_decode_flags_transfers :
    decode 0x18#8 0x00#8 0x00#8 = .clc ∧ decode 0x38#8 0x00#8 0x00#8 = .sec ∧
    decode 0xD8#8 0x00#8 0x00#8 = .cld ∧ decode 0xF8#8 0x00#8 0x00#8 = .sed ∧
    decode 0x58#8 0x00#8 0x00#8 = .cli ∧ decode 0x78#8 0x00#8 0x00#8 = .sei ∧
    decode 0xB8#8 0x00#8 0x00#8 = .clv ∧ decode 0xAA#8 0x00#8 0x00#8 = .tax ∧
    decode 0x8A#8 0x00#8 0x00#8 = .txa ∧ decode 0xA8#8 0x00#8 0x00#8 = .tay ∧
    decode 0x98#8 0x00#8 0x00#8 = .tya ∧ decode 0xBA#8 0x00#8 0x00#8 = .tsx ∧
    decode 0x9A#8 0x00#8 0x00#8 = .txs ∧ decode 0xEA#8 0x99#8 0x88#8 = .nop ∧
    decode 0x00#8 0x00#8 0x00#8 = .brk := by decide

/-- Illegal bytes of R67: the first, one amid legal ones, the last. -/
theorem test_decode_illegal :
    decode 0x02#8 0x12#8 0x34#8 = .illegal 0x02#8 ∧ decode 0x9E#8 0x00#8 0x00#8 = .illegal 0x9E#8 ∧
    decode 0xFF#8 0x00#8 0x00#8 = .illegal 0xFF#8 := by decide

/-- A byte list that ends before the instruction does (R60). -/
theorem test_decode_truncated :
    decodeBytes [] = .error .noBytes ∧ decodeBytes [0xA9#8] = .error .truncated ∧
      decodeBytes [0x8D#8, 0x00#8] = .error .truncated := ⟨rfl, rfl, rfl⟩

/-- The opcode table's own bit numbering: the second byte is bits 15 to 8. -/
theorem test_decodeTableWord :
    decodeTableWord 24 0x02008D = some (.sta (.absolute 0x0200#16)) ∧
    decodeTableWord 16 0x05A9 = some (.lda (.immediate 0x05#8)) ∧
    decodeTableWord 8 0xFF8D = some (.sta (.absolute 0x0000#16)) := by decide

/-- The word placed is the word run, from reset and from a halted core. -/
theorem test_withFetchWord :
    (nextOf (step (State.reset.withFetchWord 16 0x05A9))).map (fun t => (t.a, t.pc)) =
      some (0x05#8, 0x0002#16) ∧
    (nextOf (step ((setHalt (startAt 0xFFFF#16) (.brk 0#16)).withFetchWord 24 0x02008D))).map
      (fun t => (t.pc, t.halted)) = some (0x0002#16, false) := by decide

/-- R69's table of syntax. -/
theorem test_syntax :
    Instr.inx.text = "INX" ∧ (Instr.asl .accumulator).text = "ASL A" ∧
    (Instr.lda (.immediate 0x05#8)).text = "LDA #$05" ∧
    (Instr.lda (.zeroPage 0x44#8)).text = "LDA $44" ∧
    (Instr.ldx (.zeroPageY 0x44#8)).text = "LDX $44,Y" ∧
    (Instr.sta (.absolute 0x0200#16)).text = "STA $0200" ∧
    (Instr.lda (.absoluteX 0x4400#16)).text = "LDA $4400,X" ∧
    (Instr.jmp (.indirect 0x02FF#16)).text = "JMP ($02FF)" ∧
    (Instr.lda (.indirectX 0x20#8)).text = "LDA ($20,X)" ∧
    (Instr.lda (.indirectY 0x20#8)).text = "LDA ($20),Y" ∧
    (Instr.beq 0x02#8).text = "BEQ *+4" := by decide +kernel

/-! ### Memory -/

/-- Writing what an unlisted address reads as removes the entry. A write keeps the addresses rising. -/
theorem test_memory_canonical :
    cells [(0x0300#16, 0x01#8), (0x0010#16, 0x02#8), (0x0300#16, 0x00#8)] = [(0x0010, 0x02#8)] ∧
    cells [(0x0300#16, 0x01#8), (0x0010#16, 0x02#8)] = [(0x0010, 0x02#8), (0x0300, 0x01#8)] := by
  decide

/-- An image that reaches 0xFFFF goes on at 0x0000 (R40). -/
theorem test_load_wraps :
    load [] [0x01#8, 0x02#8] 0xFFFF#16 = [(0x0000, 0x02#8), (0xFFFF, 0x01#8)] := by
  decide

/-! ### Illegal opcodes and the halted core -/

/-- L1.3: the fault names the address and the byte, and costs nothing. -/
theorem test_illegal :
    (go (startAt 0x0000#16) [0x02#8]).map
      (fun t => (t.pc, t.halted, t.flags, resultOf State.reset t)) =
    some (0x0000#16, true, fl 0 0 0 0 0 0, .halt (.illegalOpcode 0x0000#16 0x02#8) 0) := by decide

/-- L2.0, "Halted core". -/
theorem test_halted :
    go (setHalt (startAt 0x0200#16) (.brk 0x0300#16)) [0xE8#8] =
      some { setHalt (startAt 0x0200#16) (.brk 0x0300#16) with
        mem := cells [(0x0200#16, 0xE8#8)] } := by
  decide

/-- L2.0, "PC wraps during fetch". -/
theorem test_pc_wraps :
    (go (startAt 0xFFFF#16) [0xA9#8, 0x42#8]).map (fun t => (t.a, t.pc)) =
      some (0x42#8, 0x0001#16) := by decide

/-- L2.10, "BRK vector wraps". -/
theorem test_brk_vector_wraps :
    (go { startAt 0x0300#16 with
        mem := cells [(0xFFFF#16, 0x34#8), (0x0000#16, 0x12#8)]
        cfg := { brkMode := .vector, brkVector := 0xFFFF#16 } } [0x00#8]).map
      (fun t => (t.pc, t.sp, t.flags.i)) = some (0x1234#16, 0xFD#8, true) := by decide

/-! ### One step each of the derived vectors -/

/-! ### L2.1 -/

/-- L2.1, case "LDA abs,Y wraps at 0xFFFF (+1)". -/
theorem test_lda_abs_y_wraps_at_ffff_plus_1 :
    (go { startAt 0x0200#16 with y := 0x02#8, mem := cells [(0x0001#16, 0x5A#8)] }
      [0xB9#8, 0xFF#8, 0xFF#8]).map
      (fun t => (t.a, t.pc, t.flags, resultOf State.reset t)) =
    some (0x5A#8, 0x0203#16, fl 0 0 0 0 0 0, .executed 5) := by
  decide

/-- L2.1, case "LDA (zp),Y page cross (+1)". -/
theorem test_lda_zp_y_page_cross_plus_1 :
    (go { startAt 0x0200#16 with
        y := 0x10#8
        mem := cells [(0x0020#16, 0xF8#8), (0x0021#16, 0x30#8), (0x3108#16, 0x80#8)] }
      [0xB1#8, 0x20#8]).map
      (fun t => (t.a, t.pc, t.flags, resultOf State.reset t)) =
    some (0x80#8, 0x0202#16, fl 1 0 0 0 0 0, .executed 6) := by
  decide

/-- L2.1, case "LDX zp,Y wraps". -/
theorem test_ldx_zp_y_wraps :
    (go { startAt 0x0200#16 with
        x := 0x55#8
        y := 0x20#8
        mem := cells [(0x0010#16, 0x00#8), (0x0110#16, 0x77#8)] }
      [0xB6#8, 0xF0#8]).map
      (fun t => (t.x, t.pc, t.flags, resultOf State.reset t)) =
    some (0x00#8, 0x0202#16, fl 0 0 0 0 1 0, .executed 4) := by
  decide

/-- L2.1, case "LDX abs,Y page cross (+1)". -/
theorem test_ldx_abs_y_page_cross_plus_1 :
    (go { startAt 0x0200#16 with y := 0x01#8, mem := cells [(0x1100#16, 0xFE#8)] }
      [0xBE#8, 0xFF#8, 0x10#8]).map
      (fun t => (t.x, t.pc, t.flags, resultOf State.reset t)) =
    some (0xFE#8, 0x0203#16, fl 1 0 0 0 0 0, .executed 5) := by
  decide

/-- L2.1, case "LDY abs,X page cross (+1)". -/
theorem test_ldy_abs_x_page_cross_plus_1 :
    (go { startAt 0x0200#16 with x := 0x01#8, mem := cells [(0x1100#16, 0x01#8)] }
      [0xBC#8, 0xFF#8, 0x10#8]).map
      (fun t => (t.y, t.pc, t.flags, resultOf State.reset t)) =
    some (0x01#8, 0x0203#16, fl 0 0 0 0 0 0, .executed 5) := by
  decide

/-- L2.1, case "STA abs,X page cross (no +1)". -/
theorem test_sta_abs_x_page_cross_no_plus_1 :
    (go { startAt 0x0200#16 with a := 0x77#8, x := 0x20#8 } [0x9D#8, 0xF0#8, 0x44#8]).map
      (fun t => (t.pc, t.flags, memRead t 0x4510#16, resultOf State.reset t)) =
    some (0x0203#16, fl 0 0 0 0 0 0, 0x77#8, .executed 5) := by
  decide

/-- L2.1, case "STA leaves flags". -/
theorem test_sta_leaves_flags :
    (go { startAt 0x0200#16 with a := 0x00#8, flags := fl 1 0 0 0 0 0 } [0x85#8, 0x10#8]).map
      (fun t => (t.pc, t.flags, resultOf State.reset t)) =
    some (0x0202#16, fl 1 0 0 0 0 0, .executed 3) := by
  decide

/-- L2.1, case "STX zp,Y wraps". -/
theorem test_stx_zp_y_wraps :
    (go { startAt 0x0200#16 with x := 0xAB#8, y := 0x02#8 } [0x96#8, 0xFF#8]).map
      (fun t => (t.pc, t.flags, memRead t 0x0001#16, resultOf State.reset t)) =
    some (0x0202#16, fl 0 0 0 0 0 0, 0xAB#8, .executed 4) := by
  decide

/-- L2.1, case "STY zp,X". -/
theorem test_sty_zp_x :
    (go { startAt 0x0200#16 with x := 0x01#8, y := 0xCD#8 } [0x94#8, 0x10#8]).map
      (fun t => (t.pc, t.flags, memRead t 0x0011#16, resultOf State.reset t)) =
    some (0x0202#16, fl 0 0 0 0 0 0, 0xCD#8, .executed 4) := by
  decide


/-! ### L2.2 -/

/-- L2.2, case "ADC carry in". -/
theorem test_adc_carry_in :
    (go { startAt 0x0200#16 with a := 0x7F#8, flags := fl 0 0 0 0 0 1 } [0x69#8, 0x00#8]).map
      (fun t => (t.a, t.pc, t.flags, resultOf State.reset t)) =
    some (0x80#8, 0x0202#16, fl 1 1 0 0 0 0, .executed 2) := by
  decide

/-- L2.2, case "ADC decimal 58+46". -/
theorem test_adc_decimal_58_plus_46 :
    (go { startAt 0x0200#16 with a := 0x58#8, flags := fl 0 0 1 0 0 0 } [0x69#8, 0x46#8]).map
      (fun t => (t.a, t.pc, t.flags, resultOf State.reset t)) =
    some (0x04#8, 0x0202#16, fl 1 1 1 0 0 1, .executed 2) := by
  decide

/-- L2.2, case "SBC signed overflow 0x80-1". -/
theorem test_sbc_signed_overflow_0x80_1 :
    (go { startAt 0x0200#16 with a := 0x80#8, flags := fl 0 0 0 0 0 1 } [0xE9#8, 0x01#8]).map
      (fun t => (t.a, t.pc, t.flags, resultOf State.reset t)) =
    some (0x7F#8, 0x0202#16, fl 0 1 0 0 0 1, .executed 2) := by
  decide

/-- L2.2, case "SBC decimal 12-21". -/
theorem test_sbc_decimal_12_21 :
    (go { startAt 0x0200#16 with a := 0x12#8, flags := fl 0 0 1 0 0 1 } [0xE9#8, 0x21#8]).map
      (fun t => (t.a, t.pc, t.flags, resultOf State.reset t)) =
    some (0x91#8, 0x0202#16, fl 1 0 1 0 0 0, .executed 2) := by
  decide


/-! ### L2.3 -/

/-- L2.3, case "ORA negative". -/
theorem test_ora_negative :
    (go { startAt 0x0200#16 with a := 0x01#8 } [0x09#8, 0x80#8]).map
      (fun t => (t.a, t.pc, t.flags, resultOf State.reset t)) =
    some (0x81#8, 0x0202#16, fl 1 0 0 0 0 0, .executed 2) := by
  decide

/-- L2.3, case "EOR to zero". -/
theorem test_eor_to_zero :
    (go { startAt 0x0200#16 with a := 0xAA#8 } [0x49#8, 0xAA#8]).map
      (fun t => (t.a, t.pc, t.flags, resultOf State.reset t)) =
    some (0x00#8, 0x0202#16, fl 0 0 0 0 1 0, .executed 2) := by
  decide

/-- L2.3, case "BIT zp, N V from operand, Z from AND". -/
theorem test_bit_zp_n_v_from_operand_z_from_and :
    (go { startAt 0x0200#16 with a := 0x01#8, mem := cells [(0x0010#16, 0xC0#8)] }
      [0x24#8, 0x10#8]).map
      (fun t => (t.pc, t.flags, resultOf State.reset t)) =
    some (0x0202#16, fl 1 1 0 0 1 0, .executed 3) := by
  decide

/-- L2.3, case "BIT abs, nonzero AND". -/
theorem test_bit_abs_nonzero_and :
    (go { startAt 0x0200#16 with
        a := 0x40#8
        flags := fl 1 1 0 0 1 0
        mem := cells [(0x0300#16, 0x41#8)] }
      [0x2C#8, 0x00#8, 0x03#8]).map
      (fun t => (t.pc, t.flags, resultOf State.reset t)) =
    some (0x0203#16, fl 0 1 0 0 0 0, .executed 4) := by
  decide

/-- L2.3, case "AND (zp),Y page cross". -/
theorem test_and_zp_y_page_cross :
    (go { startAt 0x0200#16 with
        a := 0xFF#8
        y := 0xFF#8
        mem := cells [(0x0020#16, 0x01#8), (0x0021#16, 0x30#8), (0x3100#16, 0x81#8)] }
      [0x31#8, 0x20#8]).map
      (fun t => (t.a, t.pc, t.flags, resultOf State.reset t)) =
    some (0x81#8, 0x0202#16, fl 1 0 0 0 0 0, .executed 6) := by
  decide


/-! ### L2.4 -/

/-- L2.4, case "ASL A carry out, zero". -/
theorem test_asl_a_carry_out_zero :
    (go { startAt 0x0200#16 with a := 0x80#8 } [0x0A#8]).map
      (fun t => (t.a, t.pc, t.flags, resultOf State.reset t)) =
    some (0x00#8, 0x0201#16, fl 0 0 0 0 1 1, .executed 2) := by
  decide

/-- L2.4, case "LSR A clears N". -/
theorem test_lsr_a_clears_n :
    (go { startAt 0x0200#16 with a := 0xFF#8, flags := fl 1 0 0 0 0 0 } [0x4A#8]).map
      (fun t => (t.a, t.pc, t.flags, resultOf State.reset t)) =
    some (0x7F#8, 0x0201#16, fl 0 0 0 0 0 1, .executed 2) := by
  decide

/-- L2.4, case "ROL A with C=1". -/
theorem test_rol_a_with_c_1 :
    (go { startAt 0x0200#16 with a := 0x80#8, flags := fl 0 0 0 0 0 1 } [0x2A#8]).map
      (fun t => (t.a, t.pc, t.flags, resultOf State.reset t)) =
    some (0x01#8, 0x0201#16, fl 0 0 0 0 0 1, .executed 2) := by
  decide

/-- L2.4, case "ROR A with C=1". -/
theorem test_ror_a_with_c_1 :
    (go { startAt 0x0200#16 with a := 0x01#8, flags := fl 0 0 0 0 0 1 } [0x6A#8]).map
      (fun t => (t.a, t.pc, t.flags, resultOf State.reset t)) =
    some (0x80#8, 0x0201#16, fl 1 0 0 0 0 1, .executed 2) := by
  decide

/-- L2.4, case "ASL zp". -/
theorem test_asl_zp :
    (go { startAt 0x0200#16 with mem := cells [(0x0010#16, 0x81#8)] } [0x06#8, 0x10#8]).map
      (fun t => (t.pc, t.flags, memRead t 0x0010#16, resultOf State.reset t)) =
    some (0x0202#16, fl 0 0 0 0 0 1, 0x02#8, .executed 5) := by
  decide

/-- L2.4, case "LSR abs". -/
theorem test_lsr_abs :
    (go { startAt 0x0200#16 with mem := cells [(0x0300#16, 0x02#8)] } [0x4E#8, 0x00#8, 0x03#8]).map
      (fun t => (t.pc, t.flags, memRead t 0x0300#16, resultOf State.reset t)) =
    some (0x0203#16, fl 0 0 0 0 0 0, 0x01#8, .executed 6) := by
  decide

/-- L2.4, case "ROL zp,X wraps". -/
theorem test_rol_zp_x_wraps :
    (go { startAt 0x0200#16 with
        x := 0x01#8
        flags := fl 0 0 0 0 0 1
        mem := cells [(0x0000#16, 0x55#8)] }
      [0x36#8, 0xFF#8]).map
      (fun t => (t.pc, t.flags, memRead t 0x0000#16, resultOf State.reset t)) =
    some (0x0202#16, fl 1 0 0 0 0 0, 0xAB#8, .executed 6) := by
  decide

/-- L2.4, case "ROR abs,X page cross (7, no +1)". -/
theorem test_ror_abs_x_page_cross_7_no_plus_1 :
    (go { startAt 0x0200#16 with x := 0x01#8, mem := cells [(0x0300#16, 0x02#8)] }
      [0x7E#8, 0xFF#8, 0x02#8]).map
      (fun t => (t.pc, t.flags, memRead t 0x0300#16, resultOf State.reset t)) =
    some (0x0203#16, fl 0 0 0 0 0 0, 0x01#8, .executed 7) := by
  decide


/-! ### L2.5 -/

/-- L2.5, case "INC zp wraps to zero". -/
theorem test_inc_zp_wraps_to_zero :
    (go { startAt 0x0200#16 with mem := cells [(0x0010#16, 0xFF#8)] } [0xE6#8, 0x10#8]).map
      (fun t => (t.pc, t.flags, memRead t 0x0010#16, resultOf State.reset t)) =
    some (0x0202#16, fl 0 0 0 0 1 0, 0x00#8, .executed 5) := by
  decide

/-- L2.5, case "DEC zp wraps to 0xFF". -/
theorem test_dec_zp_wraps_to_ff :
    (go { startAt 0x0200#16 with mem := cells [(0x0010#16, 0x00#8)] } [0xC6#8, 0x10#8]).map
      (fun t => (t.pc, t.flags, memRead t 0x0010#16, resultOf State.reset t)) =
    some (0x0202#16, fl 1 0 0 0 0 0, 0xFF#8, .executed 5) := by
  decide

/-- L2.5, case "DEC abs,X (7)". -/
theorem test_dec_abs_x_7 :
    (go { startAt 0x0200#16 with x := 0x01#8, mem := cells [(0x0300#16, 0x01#8)] }
      [0xDE#8, 0xFF#8, 0x02#8]).map
      (fun t => (t.pc, t.flags, memRead t 0x0300#16, resultOf State.reset t)) =
    some (0x0203#16, fl 0 0 0 0 1 0, 0x00#8, .executed 7) := by
  decide

/-- L2.5, case "INX wraps". -/
theorem test_inx_wraps :
    (go { startAt 0x0200#16 with x := 0xFF#8 } [0xE8#8]).map
      (fun t => (t.x, t.pc, t.flags, resultOf State.reset t)) =
    some (0x00#8, 0x0201#16, fl 0 0 0 0 1 0, .executed 2) := by
  decide

/-- L2.5, case "INY". -/
theorem test_iny :
    (go { startAt 0x0200#16 with y := 0x7F#8 } [0xC8#8]).map
      (fun t => (t.y, t.pc, t.flags, resultOf State.reset t)) =
    some (0x80#8, 0x0201#16, fl 1 0 0 0 0 0, .executed 2) := by
  decide

/-- L2.5, case "DEX to zero". -/
theorem test_dex_to_zero :
    (go { startAt 0x0200#16 with x := 0x01#8 } [0xCA#8]).map
      (fun t => (t.x, t.pc, t.flags, resultOf State.reset t)) =
    some (0x00#8, 0x0201#16, fl 0 0 0 0 1 0, .executed 2) := by
  decide

/-- L2.5, case "DEY wraps". -/
theorem test_dey_wraps :
    (go { startAt 0x0200#16 with y := 0x00#8 } [0x88#8]).map
      (fun t => (t.y, t.pc, t.flags, resultOf State.reset t)) =
    some (0xFF#8, 0x0201#16, fl 1 0 0 0 0 0, .executed 2) := by
  decide

/-- L2.5, case "INC leaves C and V". -/
theorem test_inc_leaves_c_and_v :
    (go { startAt 0x0200#16 with flags := fl 0 1 0 0 0 1, mem := cells [(0x0010#16, 0x01#8)] }
      [0xE6#8, 0x10#8]).map
      (fun t => (t.pc, t.flags, memRead t 0x0010#16, resultOf State.reset t)) =
    some (0x0202#16, fl 0 1 0 0 0 1, 0x02#8, .executed 5) := by
  decide


/-! ### L2.6 -/

/-- L2.6, case "CMP unsigned 0x00 vs 0x80". -/
theorem test_cmp_unsigned_0x00_vs_0x80 :
    (go { startAt 0x0200#16 with a := 0x00#8 } [0xC9#8, 0x80#8]).map
      (fun t => (t.pc, t.flags, resultOf State.reset t)) =
    some (0x0202#16, fl 1 0 0 0 0 0, .executed 2) := by
  decide

/-- L2.6, case "CPX #". -/
theorem test_cpx :
    (go { startAt 0x0200#16 with x := 0xFF#8 } [0xE0#8, 0xFF#8]).map
      (fun t => (t.pc, t.flags, resultOf State.reset t)) =
    some (0x0202#16, fl 0 0 0 0 1 1, .executed 2) := by
  decide

/-- L2.6, case "CPX zp". -/
theorem test_cpx_zp :
    (go { startAt 0x0200#16 with x := 0x00#8, mem := cells [(0x0010#16, 0x01#8)] }
      [0xE4#8, 0x10#8]).map
      (fun t => (t.pc, t.flags, resultOf State.reset t)) =
    some (0x0202#16, fl 1 0 0 0 0 0, .executed 3) := by
  decide

/-- L2.6, case "CPY abs". -/
theorem test_cpy_abs :
    (go { startAt 0x0200#16 with y := 0x80#8, mem := cells [(0x0300#16, 0x7F#8)] }
      [0xCC#8, 0x00#8, 0x03#8]).map
      (fun t => (t.pc, t.flags, resultOf State.reset t)) =
    some (0x0203#16, fl 0 0 0 0 0 1, .executed 4) := by
  decide

/-- L2.6, case "CMP leaves V". -/
theorem test_cmp_leaves_v :
    (go { startAt 0x0200#16 with a := 0x80#8, flags := fl 0 1 0 0 0 0 } [0xC9#8, 0x00#8]).map
      (fun t => (t.pc, t.flags, resultOf State.reset t)) =
    some (0x0202#16, fl 1 1 0 0 0 1, .executed 2) := by
  decide


/-! ### L2.7 -/

/-- L2.7, case "BEQ not taken". -/
theorem test_beq_not_taken :
    (go (startAt 0x0200#16) [0xF0#8, 0x10#8]).map
      (fun t => (t.pc, t.flags, resultOf State.reset t)) =
    some (0x0202#16, fl 0 0 0 0 0 0, .executed 2) := by
  decide

/-- L2.7, case "BEQ taken page cross". -/
theorem test_beq_taken_page_cross :
    (go { startAt 0x02F0#16 with flags := fl 0 0 0 0 1 0 } [0xF0#8, 0x20#8]).map
      (fun t => (t.pc, t.flags, resultOf State.reset t)) =
    some (0x0312#16, fl 0 0 0 0 1 0, .executed 4) := by
  decide

/-- L2.7, case "BNE backward". -/
theorem test_bne_backward :
    (go (startAt 0x0210#16) [0xD0#8, 0xFC#8]).map
      (fun t => (t.pc, t.flags, resultOf State.reset t)) =
    some (0x020E#16, fl 0 0 0 0 0 0, .executed 3) := by
  decide

/-- L2.7, case "BCC offset 0". -/
theorem test_bcc_offset_0 :
    (go (startAt 0x0200#16) [0x90#8, 0x00#8]).map
      (fun t => (t.pc, t.flags, resultOf State.reset t)) =
    some (0x0202#16, fl 0 0 0 0 0 0, .executed 3) := by
  decide

/-- L2.7, case "BCS taken". -/
theorem test_bcs_taken :
    (go { startAt 0x0200#16 with flags := fl 0 0 0 0 0 1 } [0xB0#8, 0x7F#8]).map
      (fun t => (t.pc, t.flags, resultOf State.reset t)) =
    some (0x0281#16, fl 0 0 0 0 0 1, .executed 3) := by
  decide

/-- L2.7, case "BMI -128 page cross". -/
theorem test_bmi_128_page_cross :
    (go { startAt 0x0200#16 with flags := fl 1 0 0 0 0 0 } [0x30#8, 0x80#8]).map
      (fun t => (t.pc, t.flags, resultOf State.reset t)) =
    some (0x0182#16, fl 1 0 0 0 0 0, .executed 4) := by
  decide

/-- L2.7, case "BPL wraps at top of memory". -/
theorem test_bpl_wraps_at_top_of_memory :
    (go (startAt 0xFFF0#16) [0x10#8, 0x7F#8]).map
      (fun t => (t.pc, t.flags, resultOf State.reset t)) =
    some (0x0071#16, fl 0 0 0 0 0 0, .executed 4) := by
  decide

/-- L2.7, case "BVC not taken". -/
theorem test_bvc_not_taken :
    (go { startAt 0x0200#16 with flags := fl 0 1 0 0 0 0 } [0x50#8, 0x10#8]).map
      (fun t => (t.pc, t.flags, resultOf State.reset t)) =
    some (0x0202#16, fl 0 1 0 0 0 0, .executed 2) := by
  decide

/-- L2.7, case "BVS taken". -/
theorem test_bvs_taken :
    (go { startAt 0x0200#16 with flags := fl 0 1 0 0 0 0 } [0x70#8, 0x02#8]).map
      (fun t => (t.pc, t.flags, resultOf State.reset t)) =
    some (0x0204#16, fl 0 1 0 0 0 0, .executed 3) := by
  decide

/-- L2.7, case "BCC at 0x02FE to 0x0300: same page as PC+2, no cross". -/
theorem test_bcc_at_0x02fe_to_0x0300_same_page_as_pc_plus_2_no_cross :
    (go (startAt 0x02FE#16) [0x90#8, 0x00#8]).map
      (fun t => (t.pc, t.flags, resultOf State.reset t)) =
    some (0x0300#16, fl 0 0 0 0 0 0, .executed 3) := by
  decide


/-! ### L2.8 -/

/-- L2.8, case "JMP abs". -/
theorem test_jmp_abs :
    (go (startAt 0x0200#16) [0x4C#8, 0x34#8, 0x12#8]).map
      (fun t => (t.pc, t.flags, resultOf State.reset t)) =
    some (0x1234#16, fl 0 0 0 0 0 0, .executed 3) := by
  decide

/-- L2.8, case "JMP (ind) page-wrap quirk". -/
theorem test_jmp_ind_page_wrap_quirk :
    (go { startAt 0x0400#16 with
        mem := cells [(0x02FF#16, 0x34#8), (0x0200#16, 0x12#8), (0x0300#16, 0x56#8)] }
      [0x6C#8, 0xFF#8, 0x02#8]).map
      (fun t => (t.pc, t.flags, resultOf State.reset t)) =
    some (0x1234#16, fl 0 0 0 0 0 0, .executed 5) := by
  decide

/-- L2.8, case "JSR, SP=0x00". -/
theorem test_jsr_sp_0x00 :
    (go (startAt 0x0200#16) [0x20#8, 0x34#8, 0x12#8]).map
      (fun t => (t.sp, t.pc, t.flags,
        [memRead t 0x01FE#16, memRead t 0x01FF#16], resultOf State.reset t)) =
    some (0xFE#8, 0x1234#16, fl 0 0 0 0 0 0, [0x02#8, 0x02#8], .executed 6) := by
  decide

/-- L2.8, case "JSR, WriteThenDec, SP=0xFF". -/
theorem test_jsr_writethendec_sp_ff :
    (go { startAt 0x0200#16 with sp := 0xFF#8, cfg := { stackOrder := .writeThenDec } }
      [0x20#8, 0x34#8, 0x12#8]).map
      (fun t => (t.sp, t.pc, t.flags,
        [memRead t 0x01FE#16, memRead t 0x01FF#16], resultOf State.reset t)) =
    some (0xFD#8, 0x1234#16, fl 0 0 0 0 0 0, [0x02#8, 0x02#8], .executed 6) := by
  decide

/-- L2.8, case "RTS". -/
theorem test_rts :
    (go { startAt 0x0200#16 with
        sp := 0xFE#8
        mem := cells [(0x01FE#16, 0x02#8), (0x01FF#16, 0x02#8)] }
      [0x60#8]).map
      (fun t => (t.sp, t.pc, t.flags, resultOf State.reset t)) =
    some (0x00#8, 0x0203#16, fl 0 0 0 0 0 0, .executed 6) := by
  decide

/-- L2.8, case "RTS pulled 0xFFFF". -/
theorem test_rts_pulled_ffff :
    (go { startAt 0x0200#16 with
        sp := 0xFE#8
        mem := cells [(0x01FE#16, 0xFF#8), (0x01FF#16, 0xFF#8)] }
      [0x60#8]).map
      (fun t => (t.sp, t.pc, t.flags, resultOf State.reset t)) =
    some (0x00#8, 0x0000#16, fl 0 0 0 0 0 0, .executed 6) := by
  decide

/-- L2.8, case "RTI". -/
theorem test_rti :
    (go { startAt 0x0200#16 with
        sp := 0xFD#8
        mem := cells [(0x01FD#16, 0xC3#8), (0x01FE#16, 0x00#8), (0x01FF#16, 0x80#8)] }
      [0x40#8]).map
      (fun t => (t.sp, t.pc, t.flags, resultOf State.reset t)) =
    some (0x00#8, 0x8000#16, fl 1 1 0 0 1 1, .executed 6) := by
  decide

/-- L2.8, case "PHA, SP=0x00". -/
theorem test_pha_sp_0x00 :
    (go { startAt 0x0200#16 with a := 0x5A#8 } [0x48#8]).map
      (fun t => (t.sp, t.pc, t.flags, memRead t 0x01FF#16, resultOf State.reset t)) =
    some (0xFF#8, 0x0201#16, fl 0 0 0 0 0 0, 0x5A#8, .executed 3) := by
  decide

/-- L2.8, case "PHA, WriteThenDec, SP=0x00". -/
theorem test_pha_writethendec_sp_0x00 :
    (go { startAt 0x0200#16 with a := 0x5A#8, cfg := { stackOrder := .writeThenDec } } [0x48#8]).map
      (fun t => (t.sp, t.pc, t.flags, memRead t 0x0100#16, resultOf State.reset t)) =
    some (0xFF#8, 0x0201#16, fl 0 0 0 0 0 0, 0x5A#8, .executed 3) := by
  decide

/-- L2.8, case "PHP C Z". -/
theorem test_php_c_z :
    (go { startAt 0x0200#16 with flags := fl 0 0 0 0 1 1 } [0x08#8]).map
      (fun t => (t.sp, t.pc, t.flags, memRead t 0x01FF#16, resultOf State.reset t)) =
    some (0xFF#8, 0x0201#16, fl 0 0 0 0 1 1, 0x33#8, .executed 3) := by
  decide

/-- L2.8, case "PLA negative, SP wraps". -/
theorem test_pla_negative_sp_wraps :
    (go { startAt 0x0200#16 with sp := 0xFF#8, mem := cells [(0x01FF#16, 0x80#8)] } [0x68#8]).map
      (fun t => (t.a, t.sp, t.pc, t.flags, resultOf State.reset t)) =
    some (0x80#8, 0x00#8, 0x0201#16, fl 1 0 0 0 0 0, .executed 4) := by
  decide

/-- L2.8, case "PLA, WriteThenDec". -/
theorem test_pla_writethendec :
    (go { startAt 0x0200#16 with
        sp := 0xFE#8
        mem := cells [(0x01FF#16, 0x80#8)]
        cfg := { stackOrder := .writeThenDec } }
      [0x68#8]).map
      (fun t => (t.a, t.sp, t.pc, t.flags, resultOf State.reset t)) =
    some (0x80#8, 0xFF#8, 0x0201#16, fl 1 0 0 0 0 0, .executed 4) := by
  decide

/-- L2.8, case "PLP all ones". -/
theorem test_plp_all_ones :
    (go { startAt 0x0200#16 with sp := 0xFF#8, mem := cells [(0x01FF#16, 0xFF#8)] } [0x28#8]).map
      (fun t => (t.sp, t.pc, t.flags, resultOf State.reset t)) =
    some (0x00#8, 0x0201#16, fl 1 1 1 1 1 1, .executed 4) := by
  decide

/-- L2.8, case "PLP 0x30 clears all". -/
theorem test_plp_0x30_clears_all :
    (go { startAt 0x0200#16 with
        sp := 0xFF#8
        flags := fl 1 1 1 1 1 1
        mem := cells [(0x01FF#16, 0x30#8)] }
      [0x28#8]).map
      (fun t => (t.sp, t.pc, t.flags, resultOf State.reset t)) =
    some (0x00#8, 0x0201#16, fl 0 0 0 0 0 0, .executed 4) := by
  decide


/-! ### L2.9 -/

/-- L2.9, case "CLC". -/
theorem test_clc :
    (go { startAt 0x0200#16 with flags := fl 0 0 0 0 0 1 } [0x18#8]).map
      (fun t => (t.pc, t.flags, resultOf State.reset t)) =
    some (0x0201#16, fl 0 0 0 0 0 0, .executed 2) := by
  decide

/-- L2.9, case "SEC". -/
theorem test_sec :
    (go (startAt 0x0200#16) [0x38#8]).map
      (fun t => (t.pc, t.flags, resultOf State.reset t)) =
    some (0x0201#16, fl 0 0 0 0 0 1, .executed 2) := by
  decide

/-- L2.9, case "CLD". -/
theorem test_cld :
    (go { startAt 0x0200#16 with flags := fl 0 0 1 0 0 0 } [0xD8#8]).map
      (fun t => (t.pc, t.flags, resultOf State.reset t)) =
    some (0x0201#16, fl 0 0 0 0 0 0, .executed 2) := by
  decide

/-- L2.9, case "SED". -/
theorem test_sed :
    (go (startAt 0x0200#16) [0xF8#8]).map
      (fun t => (t.pc, t.flags, resultOf State.reset t)) =
    some (0x0201#16, fl 0 0 1 0 0 0, .executed 2) := by
  decide

/-- L2.9, case "CLI". -/
theorem test_cli :
    (go { startAt 0x0200#16 with flags := fl 0 0 0 1 0 0 } [0x58#8]).map
      (fun t => (t.pc, t.flags, resultOf State.reset t)) =
    some (0x0201#16, fl 0 0 0 0 0 0, .executed 2) := by
  decide

/-- L2.9, case "SEI". -/
theorem test_sei :
    (go (startAt 0x0200#16) [0x78#8]).map
      (fun t => (t.pc, t.flags, resultOf State.reset t)) =
    some (0x0201#16, fl 0 0 0 1 0 0, .executed 2) := by
  decide

/-- L2.9, case "CLV". -/
theorem test_clv :
    (go { startAt 0x0200#16 with flags := fl 0 1 0 0 0 0 } [0xB8#8]).map
      (fun t => (t.pc, t.flags, resultOf State.reset t)) =
    some (0x0201#16, fl 0 0 0 0 0 0, .executed 2) := by
  decide

/-- L2.9, case "TAX zero". -/
theorem test_tax_zero :
    (go { startAt 0x0200#16 with a := 0x00#8, x := 0x55#8 } [0xAA#8]).map
      (fun t => (t.x, t.pc, t.flags, resultOf State.reset t)) =
    some (0x00#8, 0x0201#16, fl 0 0 0 0 1 0, .executed 2) := by
  decide

/-- L2.9, case "TXA negative". -/
theorem test_txa_negative :
    (go { startAt 0x0200#16 with x := 0x80#8 } [0x8A#8]).map
      (fun t => (t.a, t.pc, t.flags, resultOf State.reset t)) =
    some (0x80#8, 0x0201#16, fl 1 0 0 0 0 0, .executed 2) := by
  decide

/-- L2.9, case "TAY". -/
theorem test_tay :
    (go { startAt 0x0200#16 with a := 0x01#8 } [0xA8#8]).map
      (fun t => (t.y, t.pc, t.flags, resultOf State.reset t)) =
    some (0x01#8, 0x0201#16, fl 0 0 0 0 0 0, .executed 2) := by
  decide

/-- L2.9, case "TYA zero". -/
theorem test_tya_zero :
    (go { startAt 0x0200#16 with a := 0x10#8, y := 0x00#8 } [0x98#8]).map
      (fun t => (t.a, t.pc, t.flags, resultOf State.reset t)) =
    some (0x00#8, 0x0201#16, fl 0 0 0 0 1 0, .executed 2) := by
  decide

/-- L2.9, case "TSX". -/
theorem test_tsx :
    (go { startAt 0x0200#16 with sp := 0xFD#8 } [0xBA#8]).map
      (fun t => (t.x, t.pc, t.flags, resultOf State.reset t)) =
    some (0xFD#8, 0x0201#16, fl 1 0 0 0 0 0, .executed 2) := by
  decide

/-- L2.9, case "TXS no flags". -/
theorem test_txs_no_flags :
    (go { startAt 0x0200#16 with x := 0x00#8, flags := fl 1 0 0 0 0 0 } [0x9A#8]).map
      (fun t => (t.pc, t.flags, resultOf State.reset t)) =
    some (0x0201#16, fl 1 0 0 0 0 0, .executed 2) := by
  decide

/-- L2.9, case "NOP". -/
theorem test_nop :
    (go { startAt 0x0200#16 with a := 0x12#8, flags := fl 0 0 0 0 0 1 } [0xEA#8]).map
      (fun t => (t.pc, t.flags, resultOf State.reset t)) =
    some (0x0201#16, fl 0 0 0 0 0 1, .executed 2) := by
  decide

/-- L2.9, case "BRK, Halt mode, flags N C". -/
theorem test_brk_halt_mode_flags_n_c :
    (go { startAt 0x0300#16 with sp := 0xFF#8, flags := fl 1 0 0 0 0 1 } [0x00#8]).map
      (fun t => (t.sp, t.pc, t.flags,
        [memRead t 0x01FC#16, memRead t 0x01FD#16, memRead t 0x01FE#16], resultOf State.reset t)) =
    some (0xFC#8, 0x0301#16, fl 1 0 0 1 0 1, [0xB1#8, 0x02#8, 0x03#8], .halt (.brk 0x0300#16) 7) := by
  decide

/-- L2.9, case "BRK, Vector mode". -/
theorem test_brk_vector_mode :
    (go { startAt 0x0300#16 with
        mem := cells [(0xFFFE#16, 0x00#8), (0xFFFF#16, 0x80#8)]
        cfg := { brkMode := .vector } }
      [0x00#8]).map
      (fun t => (t.sp, t.pc, t.flags,
        [memRead t 0x01FD#16, memRead t 0x01FE#16, memRead t 0x01FF#16], resultOf State.reset t)) =
    some (0xFD#8, 0x8000#16, fl 0 0 0 1 0 0, [0x30#8, 0x02#8, 0x03#8], .executed 7) := by
  decide

/-! ### Runs of the driver -/

/-- R100, R58: NOP, then after a host write the illegal byte 0x02, then nothing more, though the
driver chose three steps. -/
theorem test_drive_ends_at_the_halt :
    (drive [[], [(0x0300#16, 0x01#8)], [(0x0300#16, 0x07#8)]]
        { startAt 0x0200#16 with mem := cells [(0x0200#16, 0xEA#8), (0x0201#16, 0x02#8)] }).map
      (fun t => (t.pc, t.cycles, t.halted, memRead t 0x0300#16)) =
    some (0x0201#16, 2, true, 0x01#8) := by
  decide

/-- R100: the driver's bound ends a run that is not halted. -/
theorem test_drive_ends_at_the_bound :
    (drive [[(0x0200#16, 0xEA#8)]] (startAt 0x0200#16)).map (fun t => (t.pc, t.halted)) =
    some (0x0201#16, false) := by
  decide

/-! ### Witnesses: for each statement with hypotheses, a concrete case that meets them -/

theorem witness_DecodeOfEncodeIsTheInstruction :
    (Instr.sta (.absoluteX 0xFFFF#16)).wellFormed = true ∧ Instr.brk.wellFormed = true ∧
      (Instr.illegal 0xFF#8).wellFormed = true := by decide

theorem witness_CanonicalMemoriesAreEqualWhenTheyReadEqual :
    Memory.wf [(0, 0x01#8), (0xFFFF, 0xFF#8)] = true ∧
      ∀ a, Memory.read [(0, 0x01#8), (0xFFFF, 0xFF#8)] a =
        Memory.read [(0, 0x01#8), (0xFFFF, 0xFF#8)] a := ⟨by decide, fun _ => rfl⟩

/-- An image over the end of memory: its bytes at 0xFFFF and 0x0000, and an address it does not reach. -/
theorem witness_BootLoadsTheImageOverTheInitialMemory :
    let image : List Byte := [0x01#8, 0x02#8]
    let base : Addr := 0xFFFF#16
    (image[0]? = some 0x01#8 ∧
      ∀ j, 0 < j → j < image.length → base + BitVec.ofNat 16 j ≠ base + BitVec.ofNat 16 0) ∧
    (image[1]? = some 0x02#8 ∧
      ∀ j, 1 < j → j < image.length → base + BitVec.ofNat 16 j ≠ base + BitVec.ofNat 16 1) ∧
    ∀ k < image.length, 0x0001#16 ≠ base + BitVec.ofNat 16 k := by
  refine ⟨⟨rfl, fun j h1 h2 => ?_⟩, ⟨rfl, fun j h1 h2 => ?_⟩, by decide⟩
  · obtain rfl : j = 1 := by simp at h2; omega
    decide
  · simp at h2
    omega

/-- A store at the end of memory, its operand at 0x0000 and 0x0001. -/
theorem witness_StepRunsTheInstructionAtPc :
    let s := { startAt 0xFFFF#16 with mem := cells [(0xFFFF#16, 0x8D#8), (0x0001#16, 0x02#8)] }
    (Instr.sta (.absolute 0x0200#16)).wellFormed = true ∧ s.halted = false ∧
      ∀ (k : Nat) (v : Byte), (encode (.sta (.absolute 0x0200#16)))[k]? = some v →
        memRead s (s.pc + BitVec.ofNat 16 k) = v := by
  have henc : encode (.sta (.absolute 0x0200#16)) = [0x8D#8, 0x00#8, 0x02#8] := by decide +kernel
  refine ⟨by decide, rfl, fun k v h => ?_⟩
  rw [henc] at h
  match k with
  | 0 => simp at h; subst h; decide
  | 1 => simp at h; subst h; decide
  | 2 => simp at h; subst h; decide
  | k + 3 => simp at h

theorem witness_HaltedStepIsANoOp :
    (setHalt State.reset (.brk 0x0300#16)).halted = true ∧
      (setHalt State.reset (.brk 0x0300#16)).haltReason = some (.brk 0x0300#16) := ⟨rfl, rfl⟩

/-- A step that goes on, and one that halts. -/
theorem witness_StepReturnsTheCyclesItAdded :
    let s := { startAt 0x0200#16 with mem := cells [(0x0200#16, 0xEA#8)] }
    Inv s ∧ s.halted = false ∧ (nextOf (step s)).map State.halted = some false ∧
      Inv State.reset ∧ State.reset.halted = false ∧
      (nextOf (step State.reset)).map State.halted = some true :=
  ⟨⟨by decide, rfl⟩, rfl, by decide, ⟨rfl, rfl⟩, rfl, by decide⟩

theorem witness_StepKeepsTheInvariant :
    Inv State.reset ∧ ∃ t, step State.reset = .next t := ⟨⟨rfl, rfl⟩, _, rfl⟩

/-- A run of one host write, of a driver that chose one step. -/
theorem witness_RunsOfBootedMachinesKeepTheInvariant :
    ∃ t, Run 1 (boot {} {} (fun _ => 0#8) [0xEA#8] 0x0000#16) 0 t :=
  ⟨_, .hostWrite .start ⟨by decide, rfl⟩ 0x0001#16 0xEA#8⟩

/-- A run from a halted state. -/
theorem witness_RunsEndAtTheFirstHaltOrTheBound :
    Run 2 (setHalt State.reset (.brk 0x0300#16)) 0 (setHalt State.reset (.brk 0x0300#16)) ∧
      (setHalt State.reset (.brk 0x0300#16)).halted = true := ⟨.start, rfl⟩

/-- The first and the last illegal byte, fetched. -/
theorem witness_IllegalOpcodeHaltsInPlace :
    let s (b : Byte) := { startAt 0xFFFF#16 with mem := cells [(0xFFFF#16, b)] }
    (s 0x02#8).halted = false ∧ memRead (s 0x02#8) (s 0x02#8).pc ∈ illegalBytes ∧
      (s 0xFF#8).halted = false ∧ memRead (s 0xFF#8) (s 0xFF#8).pc ∈ illegalBytes := by decide

/-- An illegal opcode, BRK in `Halt` mode, BRK in `Vector` mode, and a halted core. -/
theorem witness_OnlyIllegalOpcodesAndBrkHalt :
    let s (b : Byte) := { startAt 0x0200#16 with mem := cells [(0x0200#16, b)] }
    (∃ t, step (s 0x02#8) = .next t) ∧ (s 0x02#8).haltReason = none ∧
      (∃ t, step (s 0x00#8) = .next t) ∧ memRead (s 0x00#8) (s 0x00#8).pc = 0x00#8 ∧
      (s 0x00#8).cfg.brkMode = .halt ∧
      (∃ t, step { s 0x00#8 with cfg := { brkMode := .vector } } = .next t) ∧
      ∃ t, step (setHalt (s 0xEA#8) (.brk 0x0300#16)) = .next t :=
  ⟨⟨_, rfl⟩, rfl, ⟨_, rfl⟩, by decide, rfl, ⟨_, rfl⟩, ⟨_, rfl⟩⟩

/-- An instruction that moves past itself, and an illegal slot. -/
theorem witness_PcMovesPastInstructionsThatDoNotAssignIt :
    (∃ t, exec (.lda (.immediate 0#8)) State.reset = .next t) ∧ Op.lda ≠ .illegal ∧
      assignsPc State.reset .lda = false ∧
      ∃ t, exec (.illegal 0x02#8) State.reset = .next t :=
  ⟨⟨_, rfl⟩, by decide, by decide, ⟨_, rfl⟩⟩

/-- A marked opcode on a page cross, and a taken branch across a page. -/
theorem witness_CyclesAreBasePlusPenaltyPlusExtra :
    let s := { startAt 0x02F0#16 with x := 0x01#8 }
    (∃ t, exec (.lda (.absoluteX 0x00FF#16)) s = .next t) ∧
      rowOf .lda .absoluteX = some ⟨.lda, 3, 4, .absoluteX, true⟩ ∧
      (resolve s (.absoluteX 0x00FF#16)).2 = true ∧
      (∃ t, exec (.bne 0x20#8) s = .next t) ∧
      rowOf .bne .relative = some ⟨.bne, 2, 2, .relative, false⟩ ∧
      branchCondition s.flags .bne = some true :=
  ⟨⟨_, rfl⟩, by decide +kernel, by decide, ⟨_, rfl⟩, by decide +kernel, rfl⟩

/-- STA writes no flag. -/
theorem witness_FlagsChangeOnlyByTheirWriters :
    (∃ t, exec (.sta (.zeroPage 0xFF#8)) State.reset = .next t) ∧ Op.sta ∉ carryWriters ∧
      Op.sta ∉ zeroNegativeWriters ∧ Op.sta ∉ interruptWriters ∧ Op.sta ∉ decimalWriters ∧
      Op.sta ∉ overflowWriters := ⟨⟨_, rfl⟩, by decide, by decide, by decide, by decide, by decide⟩

/-- ASL of a memory byte writes no register. -/
theorem witness_RegistersChangeOnlyByTheirWriters :
    (∃ t, exec (.asl (.zeroPage 0xFF#8)) State.reset = .next t) ∧ Op.asl ∉ accumulatorWriters ∧
      ¬(Op.asl ∈ shifts ∧ (Instr.asl (.zeroPage 0xFF#8)).mode = .accumulator) ∧ Op.asl ∉ xWriters ∧
      Op.asl ∉ yWriters ∧ Op.asl ∉ spWriters :=
  ⟨⟨_, rfl⟩, by decide, by decide, by decide, by decide, by decide⟩

/-- JSR at SP 0 stores at the top of the stack page, so the byte above and the byte below are kept. -/
theorem witness_MemoryChangesOnlyWhereTheInstructionStores :
    (∃ t, exec (.jsr 0x1234#16) State.reset = .next t) ∧
      storedAddrs State.reset (.jsr 0x1234#16) = [0x01FF#16, 0x01FE#16] ∧
      0x0200#16 ∉ storedAddrs State.reset (.jsr 0x1234#16) ∧
      0x01FD#16 ∉ storedAddrs State.reset (.jsr 0x1234#16) :=
  ⟨⟨_, rfl⟩, by decide, by decide, by decide⟩

/-- An instruction that does not write I, and one that does. -/
theorem witness_InterruptFlagAffectsNothingElse :
    Op.pla ≠ .php ∧ Op.pla ≠ .brk ∧ (∃ t, exec .pla State.reset = .next t) ∧
      Op.plp ≠ .php ∧ Op.plp ≠ .brk ∧ ∃ t, exec .plp State.reset = .next t :=
  ⟨by decide, by decide, ⟨_, rfl⟩, by decide, by decide, ⟨_, rfl⟩⟩

/-- Every form has an operand: the hypotheses of the statements over forms are met by each of them. -/
theorem witness_forms (f : Form) : ∃ o : Operand, o.mode = f.mode :=
  ⟨f.mode.operand 0 0, Mode.operand_mode _ _ _⟩

theorem witness_LoadsWriteTheirRegister :
    (⟨0xB9#8, .absoluteY, 3, 4, true⟩ : Form) ∈
        readForms 0xA1#8 0xA5#8 0xA9#8 0xAD#8 0xB1#8 0xB5#8 0xB9#8 0xBD#8 ∧
      (Operand.absoluteY 0xFFFF#16).mode = .absoluteY := by decide

theorem witness_StoresWriteOneByte :
    (⟨0x96#8, .zeroPageY, 2, 4, false⟩ : Form) ∈ [⟨0x86#8, .zeroPage, 2, 3, false⟩,
        ⟨0x8E#8, .absolute, 3, 4, false⟩, (⟨0x96#8, .zeroPageY, 2, 4, false⟩ : Form)] ∧
      (Operand.zeroPageY 0xFF#8).mode = .zeroPageY := by decide

theorem witness_AdcAndSbcWriteTheSum :
    (⟨0xE9#8, .immediate, 2, 2, false⟩ : Form) ∈
        readForms 0xE1#8 0xE5#8 0xE9#8 0xED#8 0xF1#8 0xF5#8 0xF9#8 0xFD#8 ∧
      (Operand.immediate 0x13#8).mode = .immediate := by decide

theorem witness_LogicalInstructionsWriteA :
    (⟨0x31#8, .indirectY, 2, 5, true⟩ : Form) ∈
        readForms 0x21#8 0x25#8 0x29#8 0x2D#8 0x31#8 0x35#8 0x39#8 0x3D#8 ∧
      (Operand.indirectY 0xFF#8).mode = .indirectY := by decide

theorem witness_BitWritesFlagsOnly :
    (⟨0x2C#8, .absolute, 3, 4, false⟩ : Form) ∈
        [⟨0x24#8, .zeroPage, 2, 3, false⟩, (⟨0x2C#8, .absolute, 3, 4, false⟩ : Form)] ∧
      (Operand.absolute 0xFFFF#16).mode = .absolute := by decide

theorem witness_ShiftsAndRotatesMoveOneBit :
    (⟨0x3E#8, .absoluteX, 3, 7, false⟩ : Form) ∈ modifyForms 0x26#8 0x2E#8 0x36#8 0x3E#8 ∧
      (Operand.absoluteX 0x02FF#16).mode = .absoluteX := by decide

theorem witness_IncAndDecModifyMemory :
    (⟨0xD6#8, .zeroPageX, 2, 6, false⟩ : Form) ∈ modifyForms 0xC6#8 0xCE#8 0xD6#8 0xDE#8 ∧
      (Operand.zeroPageX 0xFF#8).mode = .zeroPageX := by decide

theorem witness_ComparesWriteCZNOnly :
    (⟨0xC1#8, .indirectX, 2, 6, false⟩ : Form) ∈
        readForms 0xC1#8 0xC5#8 0xC9#8 0xCD#8 0xD1#8 0xD5#8 0xD9#8 0xDD#8 ∧
      (Operand.indirectX 0xFF#8).mode = .indirectX := by decide

/-- The smallest and the greatest decimal operand. -/
theorem witness_DecimalCoresAreDecimalArithmetic :
    isBcd 0x00#8 = true ∧ isBcd 0x99#8 = true := by decide

/-- Each way to binary mode. -/
theorem witness_SbcUndoesAdc :
    State.reset.flags.d = false ∧
      { State.reset with
        flags := fl 0 0 1 0 0 0, cfg := { decimalEnabled := false } }.cfg.decimalEnabled = false :=
  ⟨rfl, rfl⟩

/-- A branch of the list, not taken and taken. -/
theorem witness_BranchesTestTheirFlag :
    ∃ q ∈ ([(.beq, 0xF0#8, fun p => p.z)] : List ((Byte → Instr) × Byte × (Flags → Bool))),
      q.2.2 State.reset.flags = false ∧ q.2.2 (fl 0 0 0 0 1 0) = true :=
  ⟨_, List.mem_cons_self, rfl, rfl⟩

theorem witness_BrkPushesThenHaltsOrVectors :
    State.reset.cfg.brkMode = .halt ∧
      { State.reset with cfg := { brkMode := .vector } }.cfg.brkMode = .vector := ⟨rfl, rfl⟩

theorem witness_RtiReturnsFromBrk :
    { State.reset with cfg := { brkMode := .vector } }.cfg.brkMode = .vector := rfl

end Sys2Proof.Tests
end

section
/-! The addressing-mode resolver in numbers (30_encoding.md R71-R76). -/

namespace Sys2Proof.Machine

/-- A zero-page address with an index never leaves page 0 (R73). -/
theorem zext16_add_eq_ofNat (b index : Byte) :
    zext16 (b + index) = BitVec.ofNat 16 ((b.toNat + index.toNat) % 256) := by
  rw [zext16_eq_ofNat, BitVec.toNat_add]

/-- An indexed address in numbers, with 16-bit wraparound and its page-cross bit (R75, R79). -/
theorem exists_indexed_eq (base : Addr) (index : Byte) :
    ∃ ea : Addr, ea.toNat = (base.toNat + index.toNat) % 65536 ∧
      indexed base index = (.addr ea, decide (ea.toNat / 256 ≠ base.toNat / 256)) := by
  refine ⟨base + zext16 index, ?_, ?_⟩
  · rw [BitVec.toNat_add, toNat_zext16]
  · rw [indexed, pageCross_eq]

theorem toNat_word_mod (hi lo : Byte) : (word hi lo).toNat % 256 = lo.toNat := by
  rw [← toNat_lowByte, lowByte_word]

theorem toNat_word_div (hi lo : Byte) : (word hi lo).toNat / 256 = hi.toNat := by
  rw [← toNat_highByte, highByte_word]

/-- The word of JMP indirect, its high byte read at the next address of the pointer's page (R76). -/
theorem indirectWord_eq (s : State) (ptr : Addr) :
    indirectWord s ptr =
      word (memRead s (BitVec.ofNat 16 (ptr.toNat / 256 * 256 + (ptr.toNat + 1) % 256)))
        (memRead s ptr) := by
  rw [indirectWord, indirect_high]

/-- Settles O28: the direct modes are the resolver's own cases, and the zero-page ones come down to
`zext16` of an 8-bit sum. -/
theorem zeroPageAndAbsoluteModesResolve : Obligations.ZeroPageAndAbsoluteModesResolve := by
  unfold Obligations.ZeroPageAndAbsoluteModesResolve
  intro s
  refine ⟨rfl, rfl, fun _ => rfl, fun zp => ?zeroPage, fun zp => ?zeroPageX, fun zp => ?zeroPageY,
    fun _ => rfl⟩
  case zeroPage => rw [resolve, zext16_eq_ofNat]
  case zeroPageX => rw [resolve, zext16_add_eq_ofNat]
  case zeroPageY => rw [resolve, zext16_add_eq_ofNat]

/-- Settles O29: both modes are `indexed`, by X and by Y. -/
theorem absoluteIndexedModesResolve : Obligations.AbsoluteIndexedModesResolve := by
  unfold Obligations.AbsoluteIndexedModesResolve
  intro s base
  exact ⟨exists_indexed_eq base s.x, exists_indexed_eq base s.y⟩

/-- Settles O30: the effective address is the word whose two bytes `indirectWord_eq` names. -/
theorem indirectModeKeepsThePointersPage : Obligations.IndirectModeKeepsThePointersPage := by
  unfold Obligations.IndirectModeKeepsThePointersPage
  intro s ptr
  refine ⟨indirectWord s ptr, rfl, ?low, ?high⟩
  case low => rw [indirectWord_eq, toNat_word_mod]
  case high => rw [indirectWord_eq, toNat_word_div]

end Sys2Proof.Machine
end

section
/-! An operand-taking instruction against the "Encoding" entry of its rule (R102): its modes, its
bytes, and its execution in the frame. -/

namespace Sys2Proof.Machine

/-- The opcode table has the form as an entry of the mnemonic, at the form's opcode (R61, R65). -/
abbrev Form.IsRowOf (f : Form) (op : Op) : Prop :=
  opcodeOf op f.mode = some f.opcode ∧ opcodeRow f.opcode = ⟨op, f.size, f.cycles, f.mode, f.pen⟩

/-- `mk` builds the instructions of a legal mnemonic from their operand forms: each runs `body`, and
each of `forms` is an entry of the opcode table. -/
structure OperandInstr (mk : Operand → Instr) (op : Op) (body : Body) (forms : List Form) : Prop where
  op_eq : ∀ o, (mk o).op = op
  operand_eq : ∀ o, (mk o).operand = o
  bodyOf_eq : ∀ o, bodyOf (mk o) = body
  legal : op ≠ .illegal
  rows : ∀ f ∈ forms, f.IsRowOf op

theorem rawByte_eq_none {i : Instr} (hi : i.op ≠ .illegal) : i.rawByte = none := by
  cases i with
  | illegal raw => exact absurd rfl hi
  | _ => rfl

/-- A legal mnemonic's term is an instruction exactly in the modes its rule lists (R102). -/
theorem wellFormed_iff_mode_mem {i : Instr} (hi : i.op ≠ .illegal) :
    i.wellFormed = true ↔ i.mode ∈ i.op.modes := by
  simp [Instr.wellFormed, rawByte_eq_none hi]

/-- An instruction in a form of the opcode table has the form's bytes (R60). -/
theorem encodes_of_isRowOf {i : Instr} {f : Form} (hi : i.op ≠ .illegal) (hf : f.IsRowOf i.op)
    (hm : i.mode = f.mode) : f.encodes i := by
  obtain ⟨hcode, hrow⟩ := hf
  have hbytes : encode i = f.opcode :: i.operand.bytes := by
    rw [encode, rawByte_eq_none hi, hm, hcode]
  have hsize : f.size = 1 + f.mode.operandBytes := by
    have hsound := opcodeTable_sound _ (opcodeRow_mem f.opcode)
    rw [hrow, if_neg hi] at hsound
    exact hsound.2
  refine ⟨hbytes, ?_⟩
  rw [hbytes, hsize, List.length_cons, operand_bytes_length, ← hm, Instr.mode, Nat.add_comm]

/-- Every operand form but the implied one resolves to an operand with a value (R70). -/
theorem resolve_ne_none {o : Operand} (h : o.mode ≠ .implied) (s : State) :
    (resolve s o).1 ≠ .none := by
  cases o with
  | implied => exact absurd rfl h
  | _ => exact EffectiveOperand.noConfusion

/-- The forms with a memory operand resolve to an effective address (R70). -/
theorem exists_resolve_eq_addr {o : Operand}
    (h : o.mode ∉ [Mode.implied, .accumulator, .immediate]) (s : State) :
    ∃ ea, (resolve s o).1 = .addr ea := by
  cases o with
  | implied | accumulator | immediate => simp [Operand.mode] at h
  | _ => exact ⟨_, rfl⟩

@[simp] theorem memRead_past (f : Form) (cross : Bool) (s t : State) (b : Addr) :
    memRead (past f cross s t) b = memRead t b := rfl

namespace OperandInstr

variable {mk : Operand → Instr} {op : Op} {body : Body} {forms : List Form}

theorem op_ne_illegal (h : OperandInstr mk op body forms) (o : Operand) :
    (mk o).op ≠ .illegal := by
  rw [h.op_eq]
  exact h.legal

theorem hasModes (h : OperandInstr mk op body forms) : HasModes mk op.modes := fun o => by
  rw [wellFormed_iff_mode_mem (h.op_ne_illegal o), Instr.mode, h.operand_eq, h.op_eq]

theorem encodes (h : OperandInstr mk op body forms) {f : Form} (hf : f ∈ forms) {o : Operand}
    (hm : o.mode = f.mode) : f.encodes (mk o) :=
  encodes_of_isRowOf (h.op_ne_illegal o) (h.op_eq o ▸ h.rows f hf) (by
    rw [Instr.mode, h.operand_eq, hm])

/-- An instruction whose body reports nothing answers the body's state, past its form (R96, R97). -/
theorem exec_past (h : OperandInstr mk op body forms) {f : Form} (hf : f ∈ forms) {o : Operand}
    (hm : o.mode = f.mode) {s s' : State}
    (hb : body (resolve s o).1 (resolve s o).2 s = some (s', {})) (hc : s'.cycles = s.cycles) :
    exec (mk o) s = .next (past f (resolve s o).2 s s') := by
  obtain ⟨hcode, hrow⟩ := h.rows f hf
  rw [exec_eq_execute (h.op_ne_illegal o), h.op_eq, h.operand_eq, h.bodyOf_eq]
  exact execute_past (hm ▸ hcode) (hm ▸ hrow) hb hc

/-- An instruction whose body reads its operand once, in forms that all have one. -/
theorem readsOperand {effect result : State → Byte → State}
    (h : OperandInstr mk op (withOperand effect) forms) (hmodes : op.modes = forms.map Form.mode)
    (hread : ∀ f ∈ forms, f.mode ≠ .implied) (heffect : ∀ s m, effect s m = result s m)
    (hcycles : ∀ s m, (result s m).cycles = s.cycles) : ReadsOperand mk forms result := by
  refine ⟨hmodes ▸ h.hasModes, fun f hf o hm => ⟨h.encodes hf hm, fun s => ?_⟩⟩
  obtain ⟨m, hval⟩ := readOperand_isSome (resolve_ne_none (hm ▸ hread f hf) s)
  have hbody : withOperand effect (resolve s o).1 (resolve s o).2 s = some (result s m, {}) :=
    withOperand_eq_some.2 ⟨m, hval, (heffect s m).symm, rfl⟩
  exact ⟨m, hval, h.exec_past hf hm hbody (hcycles s m)⟩

/-- A store, in forms that all have a memory operand. -/
theorem storesRegister {value : State → Byte} (h : OperandInstr mk op (storeFrom value) forms)
    (hmodes : op.modes = forms.map Form.mode)
    (hmemory : ∀ f ∈ forms, f.mode ∉ [Mode.implied, .accumulator, .immediate]) :
    StoresRegister mk forms value := by
  refine ⟨hmodes ▸ h.hasModes, fun f hf o hm => ⟨h.encodes hf hm, fun s => ?_⟩⟩
  obtain ⟨ea, hea⟩ := exists_resolve_eq_addr (hm ▸ hmemory f hf) s
  have hbody : storeFrom value (resolve s o).1 (resolve s o).2 s =
      some (memWrite s ea (value s), {}) :=
    storeFrom_eq_some.2 ⟨.inl ⟨ea, hea, rfl⟩, rfl⟩
  refine ⟨ea, _, hea, h.exec_past hf hm hbody rfl, rfl, fun b => ?_⟩
  rw [memRead_past, memRead_memWrite]

end OperandInstr

end Sys2Proof.Machine
end

section
/-! The load and store instructions (41_load_store.md). -/

namespace Sys2Proof.Machine

/-- `NZ(v)` on the state in numbers (R13). -/
theorem setNZ_eq_flagsNZ (s : State) (m : Byte) :
    setNZ s m = { s with flags := flagsNZ s.flags m } := by
  rw [setNZ, nz_eq_flagsNZ, setFlags]

/-- Settles O32: each load is a body that reads its operand once, in the forms of the opcode table. -/
theorem loadsWriteTheirRegister : Obligations.LoadsWriteTheirRegister := by
  unfold Obligations.LoadsWriteTheirRegister
  refine ⟨?lda, ?ldx, ?ldy⟩
  case lda =>
    exact OperandInstr.readsOperand (op := .lda) (effect := fun s m => setNZ (setA s m) m)
      ⟨fun _ => rfl, fun _ => rfl, fun _ => rfl, by decide, by decide +kernel⟩ rfl (by decide)
      (fun s m => setNZ_eq_flagsNZ (setA s m) m) fun _ _ => rfl
  case ldx =>
    exact OperandInstr.readsOperand (op := .ldx) (effect := fun s m => setNZ (setX s m) m)
      ⟨fun _ => rfl, fun _ => rfl, fun _ => rfl, by decide, by decide +kernel⟩ rfl (by decide)
      (fun s m => setNZ_eq_flagsNZ (setX s m) m) fun _ _ => rfl
  case ldy =>
    exact OperandInstr.readsOperand (op := .ldy) (effect := fun s m => setNZ (setY s m) m)
      ⟨fun _ => rfl, fun _ => rfl, fun _ => rfl, by decide, by decide +kernel⟩ rfl (by decide)
      (fun s m => setNZ_eq_flagsNZ (setY s m) m) fun _ _ => rfl

/-- Settles O33: each store writes its register at the effective address, in the forms of the opcode
table, none of which is marked for the page-cross cycle. -/
theorem storesWriteOneByte : Obligations.StoresWriteOneByte := by
  unfold Obligations.StoresWriteOneByte
  refine ⟨?sta, ?stx, ?sty⟩
  case sta =>
    exact OperandInstr.storesRegister (op := .sta)
      ⟨fun _ => rfl, fun _ => rfl, fun _ => rfl, by decide, by decide +kernel⟩ rfl (by decide)
  case stx =>
    exact OperandInstr.storesRegister (op := .stx)
      ⟨fun _ => rfl, fun _ => rfl, fun _ => rfl, by decide, by decide +kernel⟩ rfl (by decide)
  case sty =>
    exact OperandInstr.storesRegister (op := .sty)
      ⟨fun _ => rfl, fun _ => rfl, fun _ => rfl, by decide, by decide +kernel⟩ rfl (by decide)

end Sys2Proof.Machine
end

section
/-! The logical instructions (43_logical.md). -/

namespace Sys2Proof.Machine

/-- An instruction that combines A with its operand byte, in forms that all have one, writes the
result to A and sets Z and N from it (R130-R132). -/
theorem OperandInstr.readsOperand_combine {mk : Operand → Instr} {op : Op} {f : Byte → Byte → Byte}
    {forms : List Form} (h : OperandInstr mk op (combine f) forms)
    (hmodes : op.modes = forms.map Form.mode) (hread : ∀ r ∈ forms, r.mode ≠ .implied) :
    ReadsOperand mk forms
      (fun s m => { s with a := f s.a m, flags := flagsNZ s.flags (f s.a m) }) :=
  h.readsOperand hmodes hread (fun s m => setNZ_eq_flagsNZ (setA s (f s.a m)) (f s.a m))
    fun _ _ => rfl

/-- The flags BIT writes, in numbers (R133). -/
theorem bitFlags_eq (s : State) (m : Byte) :
    bitFlags s m = { s.flags with
      z := decide (s.a &&& m = 0#8)
      n := decide (m.toNat ≥ 128)
      v := decide (m.toNat % 128 ≥ 64) } := by
  rw [bitFlags, getLsbD_7, getLsbD_6, beq_eq_decide]

/-- Settles O39: each of the three combines A with its operand byte, in the forms of the opcode
table. -/
theorem logicalInstructionsWriteA : Obligations.LogicalInstructionsWriteA := by
  unfold Obligations.LogicalInstructionsWriteA
  refine ⟨?and, ?ora, ?eor⟩
  case and =>
    exact OperandInstr.readsOperand_combine (op := .and)
      ⟨fun _ => rfl, fun _ => rfl, fun _ => rfl, by decide, by decide +kernel⟩ rfl (by decide)
  case ora =>
    exact OperandInstr.readsOperand_combine (op := .ora)
      ⟨fun _ => rfl, fun _ => rfl, fun _ => rfl, by decide, by decide +kernel⟩ rfl (by decide)
  case eor =>
    exact OperandInstr.readsOperand_combine (op := .eor)
      ⟨fun _ => rfl, fun _ => rfl, fun _ => rfl, by decide, by decide +kernel⟩ rfl (by decide)

/-- Settles O40: BIT reads its operand once, in the two forms of the opcode table, and `bitFlags_eq`
gives the flags it writes. -/
theorem bitWritesFlagsOnly : Obligations.BitWritesFlagsOnly := by
  unfold Obligations.BitWritesFlagsOnly
  exact OperandInstr.readsOperand (op := .bit) (effect := fun s m => setFlags s (bitFlags s m))
    ⟨fun _ => rfl, fun _ => rfl, fun _ => rfl, by decide, by decide +kernel⟩ rfl (by decide)
    (fun s m => congrArg (setFlags s) (bitFlags_eq s m)) fun _ _ => rfl

end Sys2Proof.Machine
end

section
/-! A read-modify-write and a one-byte instruction against the "Encoding" entry of its rule (R102). -/

namespace Sys2Proof.Machine

/-- A mnemonic's modes may be listed in any order. -/
theorem HasModes.of_perm {mk : Operand → Instr} {l l' : List Mode} (h : HasModes mk l)
    (hl : l.Perm l') : HasModes mk l' :=
  fun o => (h o).trans hl.mem_iff

/-- A read-modify-write of a memory byte, in forms that all have a memory operand. -/
theorem OperandInstr.modifiesMemory {mk : Operand → Instr} {op : Op} {body : Body}
    {forms : List Form} {r : State → Byte → Byte} {p : State → Byte → Flags}
    (h : OperandInstr mk op body forms)
    (hmemory : ∀ f ∈ forms, f.mode ∉ [Mode.implied, .accumulator, .immediate])
    (hbody : ∀ ea cross s, body (.addr ea) cross s =
      some (setFlags (memWrite s ea (r s (memRead s ea))) (p s (memRead s ea)), {})) :
    ModifiesMemory mk forms r p := by
  refine fun f hf o hm => ⟨h.encodes hf hm, fun s => ?_⟩
  obtain ⟨ea, hea⟩ := exists_resolve_eq_addr (hm ▸ hmemory f hf) s
  have hrun := hbody ea (resolve s o).2 s
  rw [← hea] at hrun
  refine ⟨ea, _, hea, h.exec_past hf hm hrun rfl, rfl, fun b => ?_⟩
  rw [memRead_past, ← memRead_memWrite]
  rfl

/-- A one-byte instruction whose body reports nothing, from its entry in the opcode table. -/
theorem oneByte_of_isRowOf {i : Instr} {code : Byte} {cycles : Nat} {result : State → State}
    (hi : i.op ≠ .illegal) (hf : (oneByte code i.mode cycles).IsRowOf i.op)
    (hbody : ∀ s, bodyOf i (resolve s i.operand).1 (resolve s i.operand).2 s = some (result s, {}))
    (hcycles : ∀ s, (result s).cycles = s.cycles) : OneByte i code cycles result := by
  obtain ⟨hbytes, hsize⟩ := encodes_of_isRowOf hi hf rfl
  have hnone : i.operand.bytes = [] := by
    rw [hbytes] at hsize
    exact List.eq_nil_of_length_eq_zero (Nat.succ.inj hsize)
  refine ⟨hbytes.trans (congrArg _ hnone), fun s => ?_⟩
  rw [exec_eq_execute hi]
  exact execute_past (f := oneByte code i.mode cycles) hf.1 hf.2 (hbody s) (hcycles s)

end Sys2Proof.Machine
end

section
/-! The increments and decrements (45_inc_dec.md). -/

namespace Sys2Proof.Machine

/-- Adding one modulo 256, in numbers. -/
theorem ofNat_toNat_add_one (b : Byte) : BitVec.ofNat 8 (b.toNat + 1) = b + 1 :=
  (BitVec.add_def b 1).symm

/-- Subtracting one modulo 256 is adding 255. -/
theorem ofNat_toNat_add_255 (b : Byte) : BitVec.ofNat 8 (b.toNat + 255) = b - 1 := by
  rw [BitVec.sub_def, Nat.add_comm]
  rfl

/-- On a memory operand, INC and DEC store the new byte and set Z and N from it (R150, R151). -/
theorem modifyOperand_addr (f : Byte → Byte) (ea : Addr) (cross : Bool) (s : State) :
    modifyOperand f (.addr ea) cross s =
      some (setFlags (memWrite s ea (f (memRead s ea))) (flagsNZ s.flags (f (memRead s ea))), {}) :=
  modifyOperand_eq_some.2 ⟨.inl ⟨ea, rfl, (setNZ_eq_flagsNZ _ _).symm⟩, rfl⟩

/-- INC in the forms of its rule (R150). -/
theorem operandInstr_inc : OperandInstr .inc .inc (modifyOperand fun m => m + 1)
    (modifyForms 0xE6#8 0xEE#8 0xF6#8 0xFE#8) :=
  ⟨fun _ => rfl, fun _ => rfl, fun _ => rfl, by decide, by decide +kernel⟩

/-- DEC in the forms of its rule (R151). -/
theorem operandInstr_dec : OperandInstr .dec .dec (modifyOperand fun m => m - 1)
    (modifyForms 0xC6#8 0xCE#8 0xD6#8 0xDE#8) :=
  ⟨fun _ => rfl, fun _ => rfl, fun _ => rfl, by decide, by decide +kernel⟩

/-- A one-byte instruction that writes a register and sets Z and N from the value written, given
that writing the register touches neither the flags nor the cycle counter. -/
theorem oneByte_setRegNZ {i : Instr} {code : Byte} {set : State → Byte → State} {v : State → Byte}
    (hi : i.op ≠ .illegal) (hf : (oneByte code i.mode 2).IsRowOf i.op)
    (hbody : bodyOf i = setRegNZ set v) (hcycles : ∀ s b, (set s b).cycles = s.cycles)
    (hflags : ∀ s b, (set s b).flags = s.flags) :
    OneByte i code 2 (fun s => { set s (v s) with flags := flagsNZ s.flags (v s) }) := by
  refine oneByte_of_isRowOf hi hf (fun s => ?_) fun s => hcycles s (v s)
  rw [hbody, setRegNZ, plain_eq_some, setNZ_eq_flagsNZ, hflags]
  exact ⟨rfl, rfl⟩

/-- Settles O43: both are read-modify-writes of memory in the four forms of the opcode table, and
adding 255 to a byte is subtracting one. -/
theorem incAndDecModifyMemory : Obligations.IncAndDecModifyMemory := by
  unfold Obligations.IncAndDecModifyMemory
  simp only [ofNat_toNat_add_one, ofNat_toNat_add_255]
  refine ⟨?incModes, ?decModes, ?inc, ?dec⟩
  case incModes => exact operandInstr_inc.hasModes.of_perm (by decide)
  case decModes => exact operandInstr_dec.hasModes.of_perm (by decide)
  case inc => exact operandInstr_inc.modifiesMemory (by decide) (modifyOperand_addr _)
  case dec => exact operandInstr_dec.modifiesMemory (by decide) (modifyOperand_addr _)

/-- Settles O44: each of the four writes its index register, and adding 255 to a byte is subtracting
one. -/
theorem indexIncrementsAndDecrements : Obligations.IndexIncrementsAndDecrements := by
  unfold Obligations.IndexIncrementsAndDecrements
  simp only [ofNat_toNat_add_one, ofNat_toNat_add_255]
  refine ⟨?inx, ?iny, ?dex, ?dey⟩
  case inx =>
    exact oneByte_setRegNZ (i := .inx) (by decide) (by decide +kernel) rfl setX_cycles setX_flags
  case iny =>
    exact oneByte_setRegNZ (i := .iny) (by decide) (by decide +kernel) rfl setY_cycles setY_flags
  case dex =>
    exact oneByte_setRegNZ (i := .dex) (by decide) (by decide +kernel) rfl setX_cycles setX_flags
  case dey =>
    exact oneByte_setRegNZ (i := .dey) (by decide) (by decide +kernel) rfl setY_cycles setY_flags

end Sys2Proof.Machine
end

section
/-! The compares (46_compare.md). -/

namespace Sys2Proof.Machine

/-- An instruction that compares a register with its operand byte, in forms that all have one, writes
C, Z and N and nothing else (R160). -/
theorem OperandInstr.readsOperand_compareWith {mk : Operand → Instr} {op : Op} {reg : State → Byte}
    {forms : List Form} (h : OperandInstr mk op (compareWith reg) forms)
    (hmodes : op.modes = forms.map Form.mode) (hread : ∀ f ∈ forms, f.mode ≠ .implied) :
    ReadsOperand mk forms (fun s m => { s with flags := compareFlags s.flags (reg s) m }) :=
  h.readsOperand hmodes hread
    (fun s m => congrArg (setFlags s) (compare_eq_compareFlags s.flags (reg s) m)) fun _ _ => rfl

/-- Settles O45: each of the three compares its register with the operand byte, in the forms of the
opcode table. -/
theorem comparesWriteCZNOnly : Obligations.ComparesWriteCZNOnly := by
  unfold Obligations.ComparesWriteCZNOnly
  refine ⟨?cmp, ?cpx, ?cpy⟩
  case cmp =>
    exact OperandInstr.readsOperand_compareWith (op := .cmp)
      ⟨fun _ => rfl, fun _ => rfl, fun _ => rfl, by decide, by decide +kernel⟩ rfl (by decide)
  case cpx =>
    exact OperandInstr.readsOperand_compareWith (op := .cpx)
      ⟨fun _ => rfl, fun _ => rfl, fun _ => rfl, by decide, by decide +kernel⟩ rfl (by decide)
  case cpy =>
    exact OperandInstr.readsOperand_compareWith (op := .cpy)
      ⟨fun _ => rfl, fun _ => rfl, fun _ => rfl, by decide, by decide +kernel⟩ rfl (by decide)

end Sys2Proof.Machine
end

section
/-! The jumps (48_jump_stack.md). -/

namespace Sys2Proof.Machine

/-- The two forms of JMP (R180). -/
def jmpForms : List Form := [⟨0x4C#8, .absolute, 3, 3, false⟩, ⟨0x6C#8, .indirect, 3, 5, false⟩]

/-- JMP in the forms of its rule (R180). -/
theorem operandInstr_jmp : OperandInstr .jmp .jmp (jumpTo id) jmpForms :=
  ⟨fun _ => rfl, fun _ => rfl, fun _ => rfl, by decide, by decide +kernel⟩

/-- JMP goes to its effective address, counts its form's base cycles and changes nothing else
(R180). -/
theorem exec_jmp {f : Form} (hf : f ∈ jmpForms) {o : Operand} (hm : o.mode = f.mode) {s : State}
    {ea : Addr} (hea : resolve s o = (.addr ea, false)) :
    exec (.jmp o) s = .next { s with pc := ea, cycles := s.cycles + f.cycles } := by
  obtain ⟨hcode, hrow⟩ := operandInstr_jmp.rows f hf
  have hbody : jumpTo id (resolve s o).1 (resolve s o).2 s = some (s, { nextPc := some ea }) := by
    rw [hea]
    rfl
  have hrun : exec (.jmp o) s = .next (finish _ (resolve s o).2 s.pc { nextPc := some ea } s) :=
    execute_of_opcode (hm ▸ hcode) hrow hbody
  rw [hrun, finish_no_halt, hea]
  simp

/-- Settles O47: both forms resolve to an effective address without a page-cross bit, the indirect one
to the word whose two bytes `indirectWord_eq` names. -/
theorem jmpAssignsPc : Obligations.JmpAssignsPc := by
  unfold Obligations.JmpAssignsPc
  refine ⟨?modes, fun addr s => ⟨?absBytes, ?abs⟩,
    fun ptr s => ⟨?indBytes, indirectWord s ptr, ?ea, ?ind⟩⟩
  case modes => exact operandInstr_jmp.hasModes
  case absBytes => exact (operandInstr_jmp.encodes (o := .absolute addr) (.head _) rfl).1
  case abs => exact exec_jmp (.head _) rfl rfl
  case indBytes => exact (operandInstr_jmp.encodes (o := .indirect ptr) (.tail _ (.head _)) rfl).1
  case ea => rw [indirectWord_eq, toNat_word, Nat.mul_comm]
  case ind => exact exec_jmp (.tail _ (.head _)) rfl rfl

end Sys2Proof.Machine
end

section
/-! The flag instructions and NOP (49_flags_transfer_misc.md). -/

namespace Sys2Proof.Machine

/-- A mnemonic whose rule lists one mode stands at one byte of the opcode table only. -/
theorem opcodeRow_op_eq_iff {op : Op} {m : Mode} {code : Byte} (hop : op ≠ .illegal)
    (hmodes : op.modes = [m]) (hcode : opcodeOf op m = some code) (b : Byte) :
    (opcodeRow b).op = op ↔ b = code := by
  constructor
  · intro hb
    subst hb
    have hsound := opcodeTable_sound _ (opcodeRow_mem b)
    rw [if_neg hop, hmodes, List.mem_singleton] at hsound
    have hself := opcodeOf_opcodeRow b hop
    rw [hsound.1, hcode] at hself
    exact (Option.some_inj.1 hself).symm
  · rintro rfl
    exact (opcodeOf_sound hcode).1

/-- A one-byte instruction with a `plain` body, which leaves counting its cycles to the frame (R97). -/
theorem oneByte_plain {i : Instr} {code : Byte} {cycles : Nat} {result : State → State}
    (hi : i.op ≠ .illegal) (hf : (oneByte code i.mode cycles).IsRowOf i.op)
    (hbody : bodyOf i = plain result) (hcycles : ∀ s, (result s).cycles = s.cycles) :
    OneByte i code cycles result :=
  oneByte_of_isRowOf hi hf (fun _ => hbody ▸ plain_eq_some.2 ⟨rfl, rfl⟩) hcycles

/-- Settles O54: the body of each of the seven, a `changeFlags`, changes its one flag only. -/
theorem flagInstructionsSetOneFlag : Obligations.FlagInstructionsSetOneFlag := by
  unfold Obligations.FlagInstructionsSetOneFlag
  refine ⟨?clc, ?sec, ?cld, ?sed, ?cli, ?sei, ?clv⟩
  case clc => exact oneByte_plain (i := .clc) (by decide) (by decide +kernel) rfl fun _ => rfl
  case sec => exact oneByte_plain (i := .sec) (by decide) (by decide +kernel) rfl fun _ => rfl
  case cld => exact oneByte_plain (i := .cld) (by decide) (by decide +kernel) rfl fun _ => rfl
  case sed => exact oneByte_plain (i := .sed) (by decide) (by decide +kernel) rfl fun _ => rfl
  case cli => exact oneByte_plain (i := .cli) (by decide) (by decide +kernel) rfl fun _ => rfl
  case sei => exact oneByte_plain (i := .sei) (by decide) (by decide +kernel) rfl fun _ => rfl
  case clv => exact oneByte_plain (i := .clv) (by decide) (by decide +kernel) rfl fun _ => rfl

/-- Settles O56: NOP's body is the identity, its rule lists one mode, and `illegalBytes` lists the
two undocumented slots. -/
theorem nopOnlyAdvances : Obligations.NopOnlyAdvances := by
  unfold Obligations.NopOnlyAdvances
  refine ⟨?advances, ?unique, ?slot1A, ?slot80⟩
  case advances => exact oneByte_plain (i := .nop) (by decide) (by decide +kernel) rfl fun _ => rfl
  case unique => exact opcodeRow_op_eq_iff (by decide) rfl (m := .implied) (by decide +kernel)
  case slot1A => exact (mem_illegalBytes _).1 (by decide)
  case slot80 => exact (mem_illegalBytes _).1 (by decide)

end Sys2Proof.Machine
end

section
/-! The decoder and the encoder undo each other (30_encoding.md R60-R63). -/

namespace Sys2Proof

/-- An entry's mode is one its mnemonic's rule lists; an illegal slot's is Implied (R61, R102). -/
theorem opcodeRow_mode_mem (b : Byte) : (opcodeRow b).mode ∈ (opcodeRow b).op.modes := by
  have hsound := opcodeTable_sound _ (opcodeRow_mem b)
  split_ifs at hsound with hop
  · rw [hsound]
    decide
  · exact hsound.1

theorem opcodeRow_size_of_illegal {b : Byte} (h : (opcodeRow b).op = .illegal) :
    (opcodeRow b).size = 0 := by
  have hsound := opcodeTable_sound _ (opcodeRow_mem b)
  rw [if_pos h] at hsound
  rw [hsound]
  rfl

theorem opcodeRow_size_of_legal {b : Byte} (h : (opcodeRow b).op ≠ .illegal) :
    (opcodeRow b).size = 1 + (opcodeRow b).mode.operandBytes := by
  have hsound := opcodeTable_sound _ (opcodeRow_mem b)
  rw [if_neg h] at hsound
  exact hsound.2

theorem opcodeRow_mode_of_illegal {b : Byte} (h : (opcodeRow b).op = .illegal) :
    (opcodeRow b).mode = .implied := by
  have hmem := opcodeRow_mode_mem b
  rw [h] at hmem
  exact List.mem_singleton.1 hmem

/-- The bytes an instruction takes beyond its opcode, from its entry's mode (R60). -/
theorem operandBytes_opcodeRow (b : Byte) :
    (opcodeRow b).mode.operandBytes = (opcodeRow b).size - 1 := by
  by_cases hop : (opcodeRow b).op = .illegal
  · rw [opcodeRow_mode_of_illegal hop, opcodeRow_size_of_illegal hop]
    rfl
  · rw [opcodeRow_size_of_legal hop, Nat.add_sub_cancel_left]

theorem Mode.operandBytes_le (m : Mode) : m.operandBytes ≤ 2 := by
  cases m <;> decide

/-! ### Operands and instructions from their bytes -/

/-- An operand form is its mode's operand of the bytes that begin with its own (R63). -/
theorem operand_of_bytes_prefix {o : Operand} {b1 b2 : Byte} (h : o.bytes <+: [b1, b2]) :
    o.mode.operand b1 b2 = o := by
  cases o with
  | implied | accumulator => rfl
  | immediate v | zeroPage v | zeroPageX v | zeroPageY v | indirectX v | indirectY v | relative v =>
    obtain rfl : v = b1 := (List.cons_prefix_cons.1 h).1
    rfl
  | absolute w | absoluteX w | absoluteY w | indirect w =>
    obtain ⟨rfl, htail⟩ := List.cons_prefix_cons.1 h
    obtain rfl : highByte w = b2 := (List.cons_prefix_cons.1 htail).1
    rw [Operand.mode, Mode.operand, word_high_low]

/-- An instruction is its mnemonic's instruction with its operand form and its own bytes (R62). -/
theorem instr_of_bytes_prefix {i : Instr} {b0 b1 b2 : Byte} (hraw : ∀ raw ∈ i.rawByte, raw = b0)
    (h : i.operand.bytes <+: [b1, b2]) : i.op.instr i.operand b0 b1 b2 = i := by
  cases i with
  | bcc v | bcs v | beq v | bne v | bmi v | bpl v | bvc v | bvs v =>
    obtain rfl : v = b1 := (List.cons_prefix_cons.1 h).1
    rfl
  | jsr w =>
    have hw := operand_of_bytes_prefix h
    rw [Instr.op, Op.instr, Operand.absolute.inj hw]
  | illegal raw =>
    rw [hraw raw rfl]
    rfl
  | _ => rfl

/-- The first byte of an illegal slot is the byte it carries (R61). -/
theorem rawByte_eq_of_encode {i : Instr} {b0 : Byte} {bs : List Byte} (h : encode i = b0 :: bs) :
    ∀ raw ∈ i.rawByte, raw = b0 := by
  intro raw hraw
  simp only [encode, Option.mem_def.1 hraw] at h
  split_ifs at h
  exact (List.cons.inj h).1

/-- Three bytes that begin with a well-formed instruction's own decode to it: the bytes beyond its
size play no part (R49, R62). -/
theorem decode_of_encode_prefix {i : Instr} (hwf : i.wellFormed = true) {b0 b1 b2 : Byte}
    (h : encode i <+: [b0, b1, b2]) : decode b0 b1 b2 = i := by
  obtain ⟨b, henc, hop, hmode, -⟩ := encode_head hwf
  have hraw := rawByte_eq_of_encode henc
  rw [henc] at h
  obtain ⟨rfl, hbytes⟩ := List.cons_prefix_cons.1 h
  rw [decode, hop, hmode, Instr.mode, operand_of_bytes_prefix hbytes]
  exact instr_of_bytes_prefix hraw hbytes

/-- At most two bytes begin with themselves, padded by 0. -/
theorem prefix_getD_zero {bs : List Byte} (h : bs.length ≤ 2) :
    bs <+: [bs.getD 0 0, bs.getD 1 0] := by
  match bs, h with
  | [], _ => exact List.nil_prefix
  | [b1], _ => exact ⟨[0], rfl⟩
  | [b1, b2], _ => exact List.prefix_rfl

/-- The decoder of a byte list takes the opcode byte and as many bytes after it as the opcode's
entry says, and leaves the rest (R60). -/
theorem decodeBytes_cons_append {b0 : Byte} {bs : List Byte}
    (h : bs.length = (opcodeRow b0).size - 1) (rest : List Byte) :
    decodeBytes (b0 :: (bs ++ rest)) = .ok (decode b0 (bs.getD 0 0) (bs.getD 1 0), rest) := by
  have hle : bs.length ≤ 2 := h.trans_le (operandBytes_opcodeRow b0 ▸ Mode.operandBytes_le _)
  match bs, hle with
  | [], _ =>
    have hsize : (opcodeRow b0).size = 0 ∨ (opcodeRow b0).size = 1 := by
      rw [List.length_nil] at h
      omega
    rcases hsize with hsize | hsize <;> simp [decodeBytes, hsize]
  | [b1], _ =>
    have hsize : (opcodeRow b0).size = 2 := by
      rw [List.length_singleton] at h
      omega
    simp [decodeBytes, hsize]
  | [b1, b2], _ =>
    have hsize : (opcodeRow b0).size = 3 := by
      rw [List.length_cons, List.length_singleton] at h
      omega
    simp [decodeBytes, hsize]

/-- Settles O1: the list decoder takes exactly the instruction's own bytes, which decode to it. -/
theorem decodeOfEncodeIsTheInstruction : Obligations.DecodeOfEncodeIsTheInstruction := by
  unfold Obligations.DecodeOfEncodeIsTheInstruction
  intro i rest hwf
  obtain ⟨b, henc, -, hmode, -⟩ := encode_head hwf
  have hlen : i.operand.bytes.length = (opcodeRow b).size - 1 := by
    rw [operand_bytes_length, ← operandBytes_opcodeRow, hmode]
    rfl
  have hprefix : encode i <+: [b, i.operand.bytes.getD 0 0, i.operand.bytes.getD 1 0] := by
    rw [henc, List.cons_prefix_cons]
    exact ⟨rfl, prefix_getD_zero (operand_bytes_length _ ▸ Mode.operandBytes_le _)⟩
  rw [henc, List.cons_append, decodeBytes_cons_append hlen, decode_of_encode_prefix hwf hprefix]

/-! ### What the decoder builds -/

/-- A mnemonic's instruction in a mode its rule lists has that mode's operand (R63, R65). -/
theorem operand_instr {op : Op} {m : Mode} (h : m ∈ op.modes) (b0 b1 b2 : Byte) :
    (op.instr (m.operand b1 b2) b0 b1 b2).operand = m.operand b1 b2 := by
  cases op with
  | inx | iny | dex | dey | bcc | bcs | beq | bne | bmi | bpl | bvc | bvs | jsr | rts | rti | pha
  | php | pla | plp | clc | sec | cld | sed | cli | sei | clv | tax | txa | tay | tya | tsx | txs
  | nop | brk | illegal =>
    obtain rfl := List.mem_singleton.1 h
    rfl
  | _ => rfl

theorem decode_operand (b0 b1 b2 : Byte) :
    (decode b0 b1 b2).operand = (opcodeRow b0).mode.operand b1 b2 :=
  operand_instr (opcodeRow_mode_mem b0) b0 b1 b2

theorem decode_mode (b0 b1 b2 : Byte) : (decode b0 b1 b2).mode = (opcodeRow b0).mode := by
  rw [Instr.mode, decode_operand, Mode.operand_mode]

/-- An opcode byte without a legal entry decodes to the illegal slot of that byte (R61). -/
theorem decode_of_illegal {b0 : Byte} (h : (opcodeRow b0).op = .illegal) (b1 b2 : Byte) :
    decode b0 b1 b2 = .illegal b0 := by
  rw [decode, h]
  rfl

/-- An illegal slot's term is an instruction exactly with one of the bytes of R67. -/
theorem wellFormed_illegal_iff (raw : Byte) :
    (Instr.illegal raw).wellFormed = true ↔ raw ∈ illegalBytes := by
  simp [Instr.wellFormed, Instr.rawByte, Instr.mode, Instr.operand, Operand.mode, Instr.op,
    Op.modes]

/-- Every three bytes decode to an instruction of the opcode table (R62). -/
theorem decode_wellFormed (b0 b1 b2 : Byte) : (decode b0 b1 b2).wellFormed = true := by
  by_cases hop : (opcodeRow b0).op = .illegal
  · rw [decode_of_illegal hop, wellFormed_illegal_iff, mem_illegalBytes]
    exact hop
  · rw [Machine.wellFormed_iff_mode_mem (decode_op b0 b1 b2 ▸ hop), decode_mode, decode_op]
    exact opcodeRow_mode_mem b0

/-- The encoder gives back the opcode byte and the operand bytes the decoder read. -/
theorem encode_decode (b0 b1 b2 : Byte) :
    encode (decode b0 b1 b2) = b0 :: ((opcodeRow b0).mode.operand b1 b2).bytes := by
  by_cases hop : (opcodeRow b0).op = .illegal
  · rw [decode_of_illegal hop, opcodeRow_mode_of_illegal hop]
    simp [encode, Instr.rawByte, (mem_illegalBytes b0).2 hop, Mode.operand, Operand.bytes]
  · rw [encode, Machine.rawByte_eq_none (decode_op b0 b1 b2 ▸ hop), decode_op, decode_mode,
      opcodeOf_opcodeRow b0 hop, decode_operand]

theorem bytes_operand_prefix (m : Mode) (b1 b2 : Byte) : (m.operand b1 b2).bytes <+: [b1, b2] := by
  cases m with
  | implied | accumulator => exact List.nil_prefix
  | immediate | zeroPage | zeroPageX | zeroPageY | indirectX | indirectY | relative =>
    exact ⟨[b2], rfl⟩
  | absolute | absoluteX | absoluteY | indirect =>
    simp [Mode.operand, Operand.bytes]

/-- Settles O2: the decoder builds the entry's mnemonic in the entry's mode, and the encoder gives
back the opcode byte and the operand bytes read. -/
theorem everyFetchDecodesToItsOwnBytes : Obligations.EveryFetchDecodesToItsOwnBytes := by
  unfold Obligations.EveryFetchDecodesToItsOwnBytes
  intro b0 b1 b2
  refine ⟨decode_wellFormed b0 b1 b2, ?bytes, ?length⟩
  case bytes =>
    rw [encode_decode, List.cons_prefix_cons]
    exact ⟨rfl, bytes_operand_prefix _ b1 b2⟩
  case length =>
    rw [encode_decode, List.length_cons, operand_bytes_length, Mode.operand_mode,
      operandBytes_opcodeRow]
    omega

/-! ### Facts of the opcode table -/

/-- Settles O3: the six opcode bytes select their entries, and the operand is built from the bytes
after them. -/
theorem specWordsDecodeAsWritten : Obligations.SpecWordsDecodeAsWritten := by
  unfold Obligations.SpecWordsDecodeAsWritten
  intro x y
  exact ⟨rfl, rfl, rfl, rfl, rfl, rfl⟩

/-- Settles O4: every mnemonic has a mode and so an opcode byte, and the entries' sizes are those of
`opcodeRow_size_of_legal` and `opcodeRow_size_of_illegal`. -/
theorem opcodeTableIsTotalAndConsistent : Obligations.OpcodeTableIsTotalAndConsistent := by
  unfold Obligations.OpcodeTableIsTotalAndConsistent
  refine ⟨opcodeTable_length, by decide +kernel, fun op => ?mnemonic,
    fun b => ⟨?zero, ?le, ?illegal⟩⟩
  case mnemonic =>
    obtain ⟨m, hm⟩ := List.exists_mem_of_ne_nil op.modes (by cases op <;> decide)
    obtain ⟨b, hb⟩ := opcodeOf_modes hm
    exact ⟨b, (opcodeOf_sound hb).1⟩
  case zero =>
    rw [mem_illegalBytes]
    refine ⟨fun hsize => ?_, opcodeRow_size_of_illegal⟩
    by_contra hop
    rw [opcodeRow_size_of_legal hop] at hsize
    omega
  case le =>
    have hle := Mode.operandBytes_le (opcodeRow b).mode
    rw [operandBytes_opcodeRow] at hle
    omega
  case illegal =>
    intro hop
    have hsound := opcodeTable_sound _ (opcodeRow_mem b)
    rwa [if_pos hop] at hsound

/-- Settles O5: the `pen` column of the 256 entries, read off the table. -/
theorem pageCrossPenaltyOpcodes : Obligations.PageCrossPenaltyOpcodes := by
  unfold Obligations.PageCrossPenaltyOpcodes
  have hpen : ∀ r ∈ opcodeTable, r.pen = true ↔
      (r.op ∈ [Op.adc, .and, .cmp, .eor, .lda, .ora, .sbc] ∧
          r.mode ∈ [Mode.absoluteX, .absoluteY, .indirectY]) ∨
        (r.op = .ldx ∧ r.mode = .absoluteY) ∨ (r.op = .ldy ∧ r.mode = .absoluteX) := by
    decide +kernel
  exact fun b => hpen _ (opcodeRow_mem b)

end Sys2Proof
end

section
/-! Canonical memories, the machine before its first step, and the host's writes (20_memory.md,
70_reset_and_hazards.md). -/

namespace Sys2Proof.Machine

/-! ### The canonical form -/

/-- Cells in the order of their addresses. -/
def CellLT (c d : Host.Cell) : Prop := c.1 < d.1

theorem Memory.pairwise_cellLT {m : Memory} (h : m.wf = true) : m.Pairwise CellLT := by
  induction m with
  | nil => exact List.Pairwise.nil
  | cons c m ih =>
    obtain ⟨-, -, hlt, hm⟩ := (Memory.wf_cons c.1 c.2 m).1 h
    exact List.pairwise_cons.2 ⟨hlt, ih hm⟩

/-- Settles O6: the cells of a canonical memory are what its addresses read as, in rising order. -/
theorem canonicalMemoriesAreEqualWhenTheyReadEqual :
    Obligations.CanonicalMemoriesAreEqualWhenTheyReadEqual := by
  unfold Obligations.CanonicalMemoriesAreEqualWhenTheyReadEqual
  intro m m' hm hm' hread
  have hasymm : Std.Asymm CellLT := ⟨fun _ _ h => Nat.lt_asymm h⟩
  refine (Memory.pairwise_cellLT hm).eq_of_mem_iff (Memory.pairwise_cellLT hm') fun ⟨a, v⟩ => ?_
  rw [Memory.mem_iff hm, Memory.mem_iff hm', hread]

/-! ### The image load -/

theorem memRead_boot (rv : ResetValues) (cfg : Config) (init : Addr → Byte) (image : List Byte)
    (base a : Addr) :
    memRead (boot rv cfg init image base) a = (load (memoryOf init) image base).read a.toNat := rfl

/-- The address of an image's byte, counted from the byte before it. -/
theorem add_one_add_ofNat (base : Addr) (k : Nat) :
    base + 1 + BitVec.ofNat 16 k = base + BitVec.ofNat 16 (k + 1) := by
  rw [Nat.add_comm k 1, BitVec.ofNat_add, ← BitVec.add_assoc]
  rfl

/-- An image leaves the bytes it does not reach (R40, R262). -/
theorem load_read_of_unreached {m : Memory} {image : List Byte} {base a : Addr}
    (h : ∀ k < image.length, a ≠ base + BitVec.ofNat 16 k) :
    (load m image base).read a.toNat = m.read a.toNat := by
  induction image generalizing m base with
  | nil => rfl
  | cons v rest ih =>
    have hhead : a ≠ base := by simpa using h 0 (Nat.zero_lt_succ _)
    have htail : ∀ k < rest.length, a ≠ base + 1 + BitVec.ofNat 16 k := fun k hk =>
      add_one_add_ofNat base k ▸ h (k + 1) (Nat.succ_lt_succ hk)
    rw [load, ih htail, Memory.read_write, if_neg (mt BitVec.eq_of_toNat_eq hhead)]

/-- The last byte an image loads at an address is there (R40, R262). -/
theorem load_read_of_last {m : Memory} {image : List Byte} {base : Addr} {k : Nat} {v : Byte}
    (hv : image[k]? = some v) (hlast : ∀ j, k < j → j < image.length →
      base + BitVec.ofNat 16 j ≠ base + BitVec.ofNat 16 k) :
    (load m image base).read (base + BitVec.ofNat 16 k).toNat = v := by
  induction image generalizing m base k with
  | nil => simp at hv
  | cons w rest ih =>
    cases k with
    | zero =>
      have hrest : ∀ j < rest.length, base + BitVec.ofNat 16 0 ≠ base + 1 + BitVec.ofNat 16 j :=
        fun j hj => add_one_add_ofNat base j ▸
          (hlast (j + 1) (Nat.succ_pos j) (Nat.succ_lt_succ hj)).symm
      obtain rfl : w = v := Option.some.inj hv
      rw [load, load_read_of_unreached hrest, Memory.read_write, if_pos (by simp)]
    | succ k =>
      rw [load, ← add_one_add_ofNat]
      refine ih hv fun j hj hlt => ?_
      rw [add_one_add_ofNat, add_one_add_ofNat]
      exact hlast (j + 1) (Nat.succ_lt_succ hj) (Nat.succ_lt_succ hlt)

/-- Settles O7: the load of the image, over MEMORY_INIT as `memoryOf` holds it. -/
theorem bootLoadsTheImageOverTheInitialMemory :
    Obligations.BootLoadsTheImageOverTheInitialMemory := by
  unfold Obligations.BootLoadsTheImageOverTheInitialMemory
  refine fun rv cfg init image base => ⟨fun k v hv hlast => ?reached, fun a h => ?unreached⟩
  case reached => rw [memRead_boot, load_read_of_last hv hlast]
  case unreached => rw [memRead_boot, load_read_of_unreached h, memoryOf_read]

/-! ### Reset and boot -/

/-- A reset meets the invariant over every canonical memory (R260, R30). -/
theorem resetWith_inv (rv : ResetValues) (cfg : Config) {m : Memory} (h : m.wf = true) :
    Inv (State.resetWith rv cfg m) := ⟨h, rfl⟩

/-- Settles O8: the caller's values stand in their fields, and the defaults are all 0. -/
theorem resetGivesTheSuppliedValues : Obligations.ResetGivesTheSuppliedValues := by
  unfold Obligations.ResetGivesTheSuppliedValues
  refine ⟨fun rv cfg init image base => ⟨load (memoryOf init) image base, rfl⟩, ?_⟩
  exact ⟨rfl, rfl, rfl, rfl, rfl, rfl, rfl, rfl, rfl, fun _ => rfl, rfl⟩

/-- Settles O9: the empty memory is canonical. -/
theorem resetMeetsTheInvariant : Obligations.ResetMeetsTheInvariant := by
  unfold Obligations.ResetMeetsTheInvariant
  exact resetWith_inv {} {} rfl

/-- Settles O10: MEMORY_INIT is canonical and the load of the image keeps it so. -/
theorem bootMeetsTheInvariant : Obligations.BootMeetsTheInvariant := by
  unfold Obligations.BootMeetsTheInvariant
  exact fun rv cfg init image base => resetWith_inv rv cfg (load_wf (memoryOf_wf init) image base)

/-- Settles O19: a host write is one store to memory. -/
theorem hostWriteStoresOneByte : Obligations.HostWriteStoresOneByte := by
  unfold Obligations.HostWriteStoresOneByte
  exact fun s a v => ⟨hostWrite_frame s a v, fun b => memRead_hostWrite s a b v⟩

end Sys2Proof.Machine
end

section
/-! Which instruction terms have an effect, and which instruction a step runs
(40_execution_cycle.md). -/

namespace Sys2Proof.Machine

/-! ### Completion -/

/-- The entry found for a mnemonic in a mode is one of the table's, with that mnemonic and mode. -/
theorem rowOf_eq_some {op : Op} {m : Mode} {row : OpcodeRow} (h : rowOf op m = some row) :
    row ∈ opcodeTable ∧ row.op = op ∧ row.mode = m := by
  have hp := List.find?_some h
  rw [Bool.and_eq_true, beq_iff_eq, beq_iff_eq] at hp
  exact ⟨List.mem_of_find?_eq_some h, hp⟩

/-- A legal mnemonic has an entry in the modes its rule lists and in no other (R65, R102). -/
theorem mode_mem_of_rowOf {op : Op} {m : Mode} {row : OpcodeRow} (hop : op ≠ .illegal)
    (h : rowOf op m = some row) : m ∈ op.modes ∧ row.size = 1 + m.operandBytes := by
  obtain ⟨hrow, rfl, rfl⟩ := rowOf_eq_some h
  have hsound := opcodeTable_sound row hrow
  rwa [if_neg hop] at hsound

/-- The forms that can be written resolve to A or to an effective address (R82). -/
theorem resolve_writable {o : Operand} (h : o.mode ∉ [Mode.implied, .immediate]) (s : State) :
    (resolve s o).1 = .acc ∨ ∃ ea, (resolve s o).1 = .addr ea := by
  cases o with
  | implied | immediate => simp [Operand.mode] at h
  | accumulator => exact .inl rfl
  | _ => exact .inr ⟨_, rfl⟩

section
variable {eo : EffectiveOperand} (cross : Bool) (s : State)

theorem withOperand_isSome (f : State → Byte → State) (h : eo ≠ .none) :
    ∃ r, withOperand f eo cross s = some r := by
  obtain ⟨m, hm⟩ := readOperand_isSome (s := s) h
  exact ⟨_, withOperand_eq_some.2 ⟨m, hm, rfl, rfl⟩⟩

theorem storeFrom_isSome (reg : State → Byte) (h : eo = .acc ∨ ∃ ea, eo = .addr ea) :
    ∃ r, storeFrom reg eo cross s = some r := by
  obtain rfl | ⟨ea, rfl⟩ := h <;> exact ⟨_, rfl⟩

theorem modifyOperand_isSome (f : Byte → Byte) (h : eo = .acc ∨ ∃ ea, eo = .addr ea) :
    ∃ r, modifyOperand f eo cross s = some r := by
  obtain rfl | ⟨ea, rfl⟩ := h <;> exact ⟨_, rfl⟩

theorem shiftOperand_isSome (f : Bool → Byte → Byte × Bool) (h : eo = .acc ∨ ∃ ea, eo = .addr ea) :
    ∃ r, shiftOperand f eo cross s = some r := by
  obtain rfl | ⟨ea, rfl⟩ := h <;> exact ⟨_, rfl⟩

theorem branchIf_isSome (cond : Flags → Bool) (h : ∃ ea, eo = .addr ea) :
    ∃ r, branchIf cond eo cross s = some r := by
  obtain ⟨ea, rfl⟩ := h
  exact ⟨_, branchIf_eq_some.2 ⟨ea, rfl, rfl, rfl⟩⟩

theorem jumpTo_isSome (f : State → State) (h : ∃ ea, eo = .addr ea) :
    ∃ r, jumpTo f eo cross s = some r := by
  obtain ⟨ea, rfl⟩ := h
  exact ⟨_, rfl⟩

end

/-- Every instruction of the opcode table has an effect in every state (R82). -/
theorem bodyOf_isSome {i : Instr} (hi : i.op ≠ .illegal) (h : i.mode ∈ i.op.modes) (cross : Bool)
    (s : State) : ∃ r, bodyOf i (resolve s i.operand).1 cross s = some r := by
  have hmode {o : Operand} {modes bad : List Mode} (hm : o.mode ∈ modes)
      (hbad : ∀ m ∈ modes, m ∉ bad) : o.mode ∉ bad := hbad _ hm
  cases i with
    simp only [Instr.op, Instr.mode, Instr.operand, bodyOf, loadInto, combine, compareWith] at h ⊢
  | lda o | ldx o | ldy o | adc o | sbc o | and o | ora o | eor o | bit o | cmp o | cpx o | cpy o =>
    have hread : o.mode ∉ [Mode.implied] := hmode h (by decide)
    exact withOperand_isSome cross s _ (resolve_ne_none (mt List.mem_singleton.2 hread) s)
  | sta o | stx o | sty o =>
    exact storeFrom_isSome cross s _ (resolve_writable (hmode h (by decide)) s)
  | asl o | lsr o | rol o | ror o =>
    exact shiftOperand_isSome cross s _ (resolve_writable (hmode h (by decide)) s)
  | inc o | dec o =>
    exact modifyOperand_isSome cross s _ (resolve_writable (hmode h (by decide)) s)
  | bcc disp | bcs disp | beq disp | bne disp | bmi disp | bpl disp | bvc disp | bvs disp =>
    exact branchIf_isSome cross s _ ⟨_, rfl⟩
  | jmp o => exact jumpTo_isSome cross s _ (exists_resolve_eq_addr (hmode h (by decide)) s)
  | illegal raw => exact absurd rfl hi
  | _ => exact ⟨_, rfl⟩

theorem eq_illegal_of_op {i : Instr} (h : i.op = .illegal) : ∃ raw, i = .illegal raw := by
  cases i with
  | illegal raw => exact ⟨raw, rfl⟩
  | _ => exact Op.noConfusion h

theorem exec_illegal {raw : Byte} (h : raw ∈ illegalBytes) (s : State) :
    exec (.illegal raw) s = .next (raiseIllegalOpcode s raw) :=
  if_pos ((mem_illegalBytes raw).1 h)

theorem exec_of_wellFormed {i : Instr} (h : i.wellFormed = true) (s : State) :
    ∃ t, exec i s = .next t := by
  by_cases hi : i.op = .illegal
  · obtain ⟨raw, rfl⟩ := eq_illegal_of_op hi
    exact ⟨_, exec_illegal ((wellFormed_illegal_iff raw).1 h) s⟩
  · have hmode := (wellFormed_iff_mode_mem hi).1 h
    obtain ⟨row, hrow⟩ := rowOf_modes hmode
    obtain ⟨r, hbody⟩ := bodyOf_isSome hi hmode (resolve s i.operand).2 s
    rw [exec_eq_execute hi]
    exact ⟨_, execute_of_some hrow hbody⟩

/-- Settles O15: an instruction of the table has an entry and an effect; a term with an effect has
an entry. -/
theorem wellFormedInstructionsComplete : Obligations.WellFormedInstructionsComplete := by
  unfold Obligations.WellFormedInstructionsComplete
  refine fun i s => ⟨fun h => exec_of_wellFormed h s, fun ⟨t, h⟩ => ?_⟩
  obtain ⟨raw, rfl, hraw, -⟩ | ⟨hi, row, s', out, hrow, -, -⟩ := exec_cases h
  · exact (wellFormed_illegal_iff raw).2 ((mem_illegalBytes raw).2 hraw)
  · exact (wellFormed_iff_mode_mem hi).2 (mode_mem_of_rowOf hi hrow).1

/-! ### The step -/

theorem step_of_halted {s : State} (h : s.halted = true) : step s = .next s := if_pos h

theorem step_of_not_halted {s : State} (h : s.halted = false) : step s = exec (fetch s) s :=
  if_neg (Bool.eq_false_iff.1 h)

/-- The mnemonic a step runs is that of the byte at PC (R93). -/
theorem fetch_op (s : State) : (fetch s).op = (currentRow s).op := decode_op _ _ _

theorem fetch_of_illegal {s : State} (h : memRead s s.pc ∈ illegalBytes) :
    fetch s = .illegal (memRead s s.pc) :=
  decode_of_illegal ((mem_illegalBytes _).1 h) _ _

theorem stepResult_of_step {s t : State} (h : step s = .next t) :
    stepResult s = some (resultOf s t) := by
  rw [stepResult, h]
  rfl

/-- Settles O14: what a step fetches is well-formed, so it completes. -/
theorem everyStepAnswersANextState : Obligations.EveryStepAnswersANextState := by
  unfold Obligations.EveryStepAnswersANextState
  intro s
  cases h : s.halted with
  | true => exact ⟨s, step_of_halted h⟩
  | false =>
    rw [step_of_not_halted h]
    exact exec_of_wellFormed (decode_wellFormed _ _ _) s

/-- Settles O11: the three bytes at PC begin with the instruction's own, so they decode to it. -/
theorem stepRunsTheInstructionAtPc : Obligations.StepRunsTheInstructionAtPc := by
  unfold Obligations.StepRunsTheInstructionAtPc
  intro i s hwf hhalted hbytes
  obtain ⟨b, henc, -, -, -⟩ := encode_head hwf
  have hlen : (encode i).length ≤ 3 := by
    rw [henc, List.length_cons, operand_bytes_length]
    exact Nat.succ_le_succ (Mode.operandBytes_le _)
  have hfetched : encode i <+: [memRead s s.pc, memRead s (s.pc + 1), memRead s (s.pc + 2)] := by
    refine List.prefix_iff_getElem?.2 fun k hk => ?_
    have hread := hbytes k _ (List.getElem?_eq_getElem hk)
    match k, hk.trans_le hlen with
    | 0, _ => simpa using hread
    | 1, _ => simpa using hread
    | 2, _ => simpa using hread
  rw [step_of_not_halted hhalted, fetch, decode_of_encode_prefix hwf hfetched]

/-- Settles O12: the step of a halted core is the identity, which consumes no cycles. -/
theorem haltedStepIsANoOp : Obligations.HaltedStepIsANoOp := by
  unfold Obligations.HaltedStepIsANoOp
  refine fun s h => ⟨step_of_halted h, fun r hr => ?_⟩
  rw [stepResult_of_step (step_of_halted h), resultOf, hr, Nat.sub_self]

/-- Settles O20: the fetched byte decodes to the illegal slot, which writes the halt fields only. -/
theorem illegalOpcodeHaltsInPlace : Obligations.IllegalOpcodeHaltsInPlace := by
  unfold Obligations.IllegalOpcodeHaltsInPlace
  refine ⟨fun s hhalted hbyte => ?_, fun raw s hraw => exec_illegal hraw s⟩
  have hstep : step s = .next (raiseIllegalOpcode s (memRead s s.pc)) := by
    rw [step_of_not_halted hhalted, fetch_of_illegal hbyte, exec_illegal hbyte]
  refine ⟨hstep, ?_⟩
  rw [stepResult_of_step hstep, resultOf]
  simp [raiseIllegalOpcode]

end Sys2Proof.Machine
end

section
/-! What every instruction and every step keeps: the invariant, the parameters, the cycle count, and
how a halt begins (10_state.md R30, R33, 40_execution_cycle.md R92). -/

namespace Sys2Proof.Machine

/-- An instruction keeps the invariant (R30, R44). -/
theorem exec_inv {i : Instr} {s t : State} (hinv : Inv s) (h : exec i s = .next t) : Inv t := by
  obtain ⟨hmem, hhalted⟩ := hinv
  obtain ⟨raw, -, -, rfl⟩ | ⟨-, row, s', out, -, hbody, rfl⟩ := exec_cases h
  · exact ⟨hmem, rfl⟩
  · obtain ⟨-, -, hh, hr, -, hm⟩ := bodyOf_untouched hbody
    obtain ⟨-, -, -, -, -, hfm, -⟩ := finish_keeps row (resolve s i.operand).2 s.pc out s'
    obtain ⟨hfh, hfr⟩ := finish_halted row (resolve s i.operand).2 s.pc out s'
    refine ⟨hfm ▸ hm hmem, ?_⟩
    rw [hfh, hfr, hh, hr, hhalted, Option.isSome_or]

/-- An instruction keeps the parameters (R33). -/
theorem exec_cfg {i : Instr} {s t : State} (h : exec i s = .next t) : t.cfg = s.cfg := by
  obtain ⟨raw, -, -, rfl⟩ | ⟨-, row, s', out, -, hbody, rfl⟩ := exec_cases h
  · rfl
  · obtain ⟨-, -, -, -, hcfg, -⟩ := bodyOf_untouched hbody
    obtain ⟨-, -, -, -, -, -, hf⟩ := finish_keeps row (resolve s i.operand).2 s.pc out s'
    rw [hf, hcfg]

/-- No instruction takes cycles back (R31). -/
theorem exec_cycles_le {i : Instr} {s t : State} (h : exec i s = .next t) :
    s.cycles ≤ t.cycles := by
  obtain ⟨raw, -, -, rfl⟩ | ⟨-, row, s', out, -, hbody, rfl⟩ := exec_cases h
  · exact Nat.le_refl _
  · obtain ⟨-, hcycles, -⟩ := bodyOf_untouched hbody
    rw [finish_cycles, hcycles]
    exact Nat.le_add_right _ _

/-- A step is the identity or an instruction. -/
theorem step_cases {s t : State} (h : step s = .next t) :
    (s.halted = true ∧ t = s) ∨ (s.halted = false ∧ exec (fetch s) s = .next t) := by
  cases hs : s.halted with
  | true => exact .inl ⟨rfl, (Host.Outcome.next.inj ((step_of_halted hs).symm.trans h)).symm⟩
  | false => exact .inr ⟨rfl, (step_of_not_halted hs).symm.trans h⟩

theorem step_inv {s t : State} (hinv : Inv s) (h : step s = .next t) : Inv t := by
  obtain ⟨-, rfl⟩ | ⟨-, hexec⟩ := step_cases h
  · exact hinv
  · exact exec_inv hinv hexec

theorem step_cfg {s t : State} (h : step s = .next t) : t.cfg = s.cfg := by
  obtain ⟨-, rfl⟩ | ⟨-, hexec⟩ := step_cases h
  · rfl
  · exact exec_cfg hexec

/-- Settles O16: a halted step is the identity and every instruction keeps the invariant. -/
theorem stepKeepsTheInvariant : Obligations.StepKeepsTheInvariant := by
  unfold Obligations.StepKeepsTheInvariant
  exact fun s t hinv h => step_inv hinv h

/-- Settles O13: the cycles never fall, and the invariant ties the recorded reason to the halt. -/
theorem stepReturnsTheCyclesItAdded : Obligations.StepReturnsTheCyclesItAdded := by
  unfold Obligations.StepReturnsTheCyclesItAdded
  intro s hinv hhalted
  obtain ⟨t, hstep⟩ := everyStepAnswersANextState s
  have hexec := (step_of_not_halted hhalted).symm.trans hstep
  obtain ⟨-, hreason⟩ := step_inv hinv hstep
  refine ⟨t, t.cycles - s.cycles, hstep, ?cycles, fun h => ?goesOn, fun h => ?halts⟩
  case cycles => rw [Nat.add_sub_cancel' (exec_cycles_le hexec)]
  case goesOn =>
    rw [h, eq_comm, Option.isSome_eq_false_iff, Option.isNone_iff_eq_none] at hreason
    rw [stepResult_of_step hstep, resultOf, hreason]
  case halts =>
    obtain ⟨r, hr⟩ := Option.isSome_iff_exists.1 (hreason.symm.trans h)
    exact ⟨r, hr, by rw [stepResult_of_step hstep, resultOf, hr]⟩

/-! ### Runs -/

/-- What steps and host writes keep holds all along a run that starts with it. -/
theorem Run.invariant {P : State → Prop} {bound n : Nat} {s t : State} (h : Run bound s n t)
    (hstart : P s) (hstep : ∀ {u v}, P u → Machine.step u = .next v → P v)
    (hwrite : ∀ {u} a v, P u → P (Machine.hostWrite u a v)) : P t := by
  induction h with
  | start => exact hstart
  | step _ _ e ih => exact hstep ih e
  | hostWrite _ _ a v ih => exact hwrite a v ih

/-- Settles O17: the invariant and the parameters hold after boot and are kept by every step and
every host write. -/
theorem runsOfBootedMachinesKeepTheInvariant :
    Obligations.RunsOfBootedMachinesKeepTheInvariant := by
  unfold Obligations.RunsOfBootedMachinesKeepTheInvariant
  intro rv cfg init image base bound n t hrun
  have hboot := bootMeetsTheInvariant rv cfg init image base
  refine hrun.invariant (P := fun u => Inv u ∧ u.cfg = cfg) ⟨hboot, rfl⟩ ?step ?hostWrite
  case step => exact fun ⟨hinv, hcfg⟩ h => ⟨step_inv hinv h, (step_cfg h).trans hcfg⟩
  case hostWrite =>
    exact fun a v ⟨⟨hmem, hreason⟩, hcfg⟩ => ⟨⟨hostWrite_wf hmem a v, hreason⟩, hcfg⟩

theorem Run.le_bound {bound n : Nat} {s t : State} (h : Run bound s n t) : n ≤ bound := by
  cases h with
  | start => exact Nat.zero_le _
  | step h g e => exact g.1
  | hostWrite h g a v => exact g.1.le

/-- A run from a halted state stays there (R100). -/
theorem Run.of_halted {bound n : Nat} {s t : State} (h : Run bound s n t)
    (hs : s.halted = true) : n = 0 ∧ t = s := by
  induction h with
  | start => exact ⟨rfl, rfl⟩
  | step _ g _ ih | hostWrite _ g _ _ ih =>
    obtain ⟨-, rfl⟩ := ih
    exact absurd hs (Bool.eq_false_iff.1 g.2)

/-- A run goes on with the host writes of a list. -/
theorem Run.hostWrites {bound n : Nat} {s t : State} (h : Run bound s n t) (g : GoesOn bound n t)
    (ws : List (Addr × Byte)) : Run bound s n (Machine.hostWrites t ws) := by
  induction ws generalizing t with
  | nil => exact h
  | cons w ws ih => exact ih (h.hostWrite g w.1 w.2) g

/-- A run is followed by one from the state it reached, their bounds added. -/
theorem Run.trans {k bound n : Nat} {s t u : State} (h : Run (bound + k) s k t)
    (h' : Run bound t n u) : Run (bound + k) s (n + k) u := by
  induction h' with
  | start => rwa [Nat.zero_add]
  | step _ g e ih =>
    rw [Nat.succ_add]
    exact ih.step ⟨Nat.add_lt_add_right g.1 k, g.2⟩ e
  | hostWrite _ g a v ih => exact ih.hostWrite ⟨Nat.add_lt_add_right g.1 k, g.2⟩ a v

/-- The driver comes to the end of a run, by the list of what it writes before each step (R100). -/
theorem drive_reaches_end (writes : List (List (Addr × Byte))) (s : State) :
    ∃ n t, drive writes s = some t ∧ Run writes.length s n t ∧
      (t.halted = true ∨ n = writes.length) := by
  induction writes generalizing s with
  | nil => exact ⟨0, s, rfl, .start, .inr rfl⟩
  | cons ws rest ih =>
    cases hs : s.halted with
    | true => exact ⟨0, s, drive_of_halted hs _, .start, .inl hs⟩
    | false =>
      obtain ⟨u, hstep⟩ := everyStepAnswersANextState (Machine.hostWrites s ws)
      obtain ⟨n, t, hdrive, hrun, hend⟩ := ih u
      have hgo : GoesOn (rest.length + 1) 0 s := ⟨Nat.succ_pos _, hs⟩
      have hgo' : GoesOn (rest.length + 1) 0 (Machine.hostWrites s ws) :=
        ⟨Nat.succ_pos _, by rwa [hostWrites_frame]⟩
      refine ⟨n + 1, t, (drive_cons hs hstep rest).trans hdrive,
        ((Run.start.hostWrites hgo ws).step hgo' hstep).trans hrun, ?_⟩
      exact hend.imp_right (congrArg (· + 1))

/-- Settles O18: the bound and the halt stand in `GoesOn`, and the driver's list of writes gives the
run to its end. -/
theorem runsEndAtTheFirstHaltOrTheBound : Obligations.RunsEndAtTheFirstHaltOrTheBound := by
  unfold Obligations.RunsEndAtTheFirstHaltOrTheBound
  exact ⟨fun _ _ _ _ h hs => h.of_halted hs, fun _ _ _ _ h => h.le_bound, drive_reaches_end⟩

/-! ### How a halt begins -/

/-- BRK stands at the byte 0x00 only (R64, R65). -/
theorem fetch_op_eq_brk_iff (s : State) : (fetch s).op = .brk ↔ memRead s s.pc = 0x00#8 := by
  rw [fetch_op]
  exact opcodeRow_op_eq_iff (by decide) rfl (m := .implied) (by decide +kernel) _

/-- The halt fields after a legal instruction: BRK in `Halt` mode sets them (R30, R214). -/
theorem exec_halt_fields {i : Instr} {s t : State} (hi : i.op ≠ .illegal)
    (h : exec i s = .next t) :
    (t.halted, t.haltReason) = if i.op = .brk ∧ s.cfg.brkMode = .halt then (true, some (.brk s.pc))
      else (s.halted, s.haltReason) := by
  obtain ⟨raw, rfl, -, -⟩ | ⟨-, row, s', out, -, hbody, rfl⟩ := exec_cases h
  · exact absurd rfl hi
  · obtain ⟨-, -, hh, hr, -, -⟩ := bodyOf_untouched hbody
    obtain ⟨hfh, hfr⟩ := finish_halted row (resolve s i.operand).2 s.pc out s'
    rw [hfh, hfr, hh, hr, bodyOf_halt hbody]
    split_ifs <;> rfl

/-- Settles O21: an illegal slot and BRK in `Halt` mode are the instructions that write the halt
fields, and a halted step and a host write keep them. -/
theorem onlyIllegalOpcodesAndBrkHalt : Obligations.OnlyIllegalOpcodesAndBrkHalt := by
  unfold Obligations.OnlyIllegalOpcodesAndBrkHalt
  refine ⟨fun s t hhalted hreason hstep => ?begins, fun s t hhalted hstep => ?stays,
    fun s a v => ⟨rfl, rfl⟩⟩
  case begins =>
    have hexec := (step_of_not_halted hhalted).symm.trans hstep
    by_cases hbyte : memRead s s.pc ∈ illegalBytes
    · rw [fetch_of_illegal hbyte, exec_illegal hbyte] at hexec
      obtain rfl := Host.Outcome.next.inj hexec
      exact .inl ⟨hbyte, rfl, rfl⟩
    · have hlegal : (fetch s).op ≠ .illegal := by
        rw [fetch_op]
        exact mt (mem_illegalBytes _).2 hbyte
      have hfields := exec_halt_fields hlegal hexec
      simp only [fetch_op_eq_brk_iff, hhalted, hreason] at hfields
      split_ifs at hfields with hbrk
      · exact .inr (.inl ⟨hbrk.1, hbrk.2, Prod.mk.inj hfields⟩)
      · exact .inr (.inr ⟨hbyte, hbrk, Prod.mk.inj hfields⟩)
  case stays =>
    obtain rfl := Host.Outcome.next.inj ((step_of_halted hhalted).symm.trans hstep)
    exact ⟨hhalted, rfl⟩

end Sys2Proof.Machine
end

section
/-! What each instruction reports to the step: PC and cycles (40_execution_cycle.md R96, R97). -/

namespace Sys2Proof.Machine

theorem assignsPc_eq_false {s : State} {op : Op} (h : assignsPc s op = false) :
    op ∉ [Op.jmp, .jsr, .rts, .rti] ∧ branchCondition s.flags op ≠ some true ∧
      ¬(op = .brk ∧ s.cfg.brkMode = .vector) := by
  simpa [assignsPc, and_assoc] using h

/-- The instructions R96 does not list assign no PC. -/
theorem bodyOf_nextPc {i : Instr} {eo : EffectiveOperand} {cross : Bool} {s s' : State}
    {out : Report} (h : bodyOf i eo cross s = some (s', out)) (hpc : assignsPc s i.op = false) :
    out.nextPc = none := by
  obtain ⟨hjump, hbranch, hbrk⟩ := assignsPc_eq_false hpc
  cases i with
    simp only [bodyOf, loadInto, combine, compareWith, transfer, setRegNZ, changeFlags,
      withOperand_eq_some, branchIf_eq_some, jumpTo_eq_some, plain_eq_some, storeFrom_eq_some,
      modifyOperand_eq_some, shiftOperand_eq_some, Option.some.injEq, Prod.mk.injEq, reduceCtorEq]
      at h
  | jmp | jsr | rts | rti => simp [Instr.op] at hjump
  | bcc | bcs | beq | bne | bmi | bpl | bvc | bvs =>
    obtain ⟨_, -, -, rfl⟩ := h
    rw [if_neg (fun hcond => hbranch (congrArg some hcond))]
  | brk =>
    obtain ⟨rfl, rfl⟩ := h
    obtain ⟨-, -, -, -, -, -, -, -, -, hcfg⟩ := enterBreak_fields s
    rw [breakReport, hcfg]
    cases hmode : s.cfg.brkMode with
    | vector => exact absurd ⟨rfl, hmode⟩ hbrk
    | halt => rfl
  | lda | ldx | ldy | adc | sbc | and | ora | eor | bit | cmp | cpx | cpy =>
    obtain ⟨_, -, -, rfl⟩ := h
    rfl
  | _ => rw [h.2]

/-- The cycles a body adds: those of a taken branch (R97, R170). -/
theorem bodyOf_extra {i : Instr} {eo : EffectiveOperand} {cross : Bool} {s s' : State}
    {out : Report} (h : bodyOf i eo cross s = some (s', out)) :
    out.extra = if branchCondition s.flags i.op = some true then 1 + cross.toNat else 0 := by
  cases i with
    simp only [bodyOf, loadInto, combine, compareWith, transfer, setRegNZ, changeFlags,
      withOperand_eq_some, branchIf_eq_some, jumpTo_eq_some, plain_eq_some, storeFrom_eq_some,
      modifyOperand_eq_some, shiftOperand_eq_some, Option.some.injEq, Prod.mk.injEq, reduceCtorEq]
      at h
  | bcc | bcs | beq | bne | bmi | bpl | bvc | bvs =>
    obtain ⟨_, -, -, rfl⟩ := h
    simp only [Instr.op, branchCondition, Option.some.injEq]
    split <;> rfl
  | brk =>
    obtain ⟨-, rfl⟩ := h
    rw [breakReport]
    split <;> rfl
  | jmp | jsr | lda | ldx | ldy | adc | sbc | and | ora | eor | bit | cmp | cpx | cpy =>
    obtain ⟨_, -, -, rfl⟩ := h
    rfl
  | rts | rti =>
    obtain ⟨-, rfl⟩ := h
    rfl
  | _ =>
    rw [h.2]
    rfl

/-- The length of a legal instruction's bytes is its entry's size (R60). -/
theorem encode_length {i : Instr} {row : OpcodeRow} (hi : i.op ≠ .illegal)
    (h : rowOf i.op i.mode = some row) : (encode i).length = row.size := by
  obtain ⟨hmode, hsize⟩ := mode_mem_of_rowOf hi h
  obtain ⟨b, henc, -⟩ := encode_head ((wellFormed_iff_mode_mem hi).2 hmode)
  rw [henc, List.length_cons, operand_bytes_length, hsize, Nat.add_comm]
  rfl

/-- Settles O22: the body reports no PC, so the end of the step adds the entry's size. -/
theorem pcMovesPastInstructionsThatDoNotAssignIt :
    Obligations.PcMovesPastInstructionsThatDoNotAssignIt := by
  unfold Obligations.PcMovesPastInstructionsThatDoNotAssignIt
  intro i s t h
  obtain ⟨raw, rfl, -, rfl⟩ | ⟨hi, row, s', out, hrow, hbody, rfl⟩ := exec_cases h
  · exact ⟨fun _ => rfl, fun hi => absurd rfl hi⟩
  · refine ⟨fun hop => absurd hop hi, fun _ hpc => ?_⟩
    rw [finish_pc, bodyOf_nextPc hbody hpc, encode_length hi hrow]
    rfl

/-- The cycles of an instruction from its entry, the page-cross bit and the branch taken (R97). -/
theorem exec_cycles {i : Instr} {s t : State} {row : OpcodeRow} (h : exec i s = .next t)
    (hrow : rowOf i.op i.mode = some row) :
    t.cycles = s.cycles + row.cycles +
      (if row.pen = true ∧ (resolve s i.operand).2 = true then 1 else 0) +
      (if branchCondition s.flags i.op = some true then 1 + (resolve s i.operand).2.toNat
        else 0) := by
  obtain ⟨raw, rfl, -, rfl⟩ | ⟨-, row', s', out, hrow', hbody, rfl⟩ := exec_cases h
  · have hillegal : rowOf .illegal .implied = some illegalRow := by decide
    obtain rfl := Option.some.inj (hillegal.symm.trans hrow)
    rfl
  · obtain rfl := Option.some.inj (hrow'.symm.trans hrow)
    obtain ⟨-, hcycles, -⟩ := bodyOf_untouched hbody
    simp only [finish_cycles, hcycles, bodyOf_extra hbody, Bool.and_eq_true, Nat.add_assoc]

/-! ### Nothing reads the cycle counter -/

/-- The state with another cycle count. -/
def withCycles (k : Nat) (s : State) : State := { s with cycles := k }

theorem resolve_withCycles (k : Nat) (s : State) (o : Operand) :
    resolve (withCycles k s) o = resolve s o := resolve_congr rfl rfl rfl rfl o

/-- A body has the same effect and the same report whatever the count (R31). -/
theorem bodyOf_withCycles (i : Instr) (eo : EffectiveOperand) (cross : Bool) (k : Nat) (s : State) :
    bodyOf i eo cross (withCycles k s) =
      (bodyOf i eo cross s).map fun r => (withCycles k r.1, r.2) := by
  cases i with
  | bcc | bcs | beq | bne | bmi | bpl | bvc | bvs =>
    cases eo with
    | addr ea =>
      simp only [bodyOf, branchIf, apply_ite (Option.map _)]
      rfl
    | _ => rfl
  | lda | ldx | ldy | sta | stx | sty | adc | sbc | and | ora | eor | bit | asl | lsr | rol | ror
  | inc | dec | cmp | cpx | cpy | jmp | jsr => cases eo <;> rfl
  | _ => rfl

/-- The end of a step adds its cycles to any count. -/
theorem finish_withCycles (row : OpcodeRow) (cross : Bool) (pc0 : Addr) (out : Report) (k : Nat)
    (s : State) : finish row cross pc0 out (withCycles k s) =
      withCycles (k + ((finish row cross pc0 out s).cycles - s.cycles))
        (finish row cross pc0 out s) := by
  rw [finish_cycles, Nat.add_sub_cancel_left]
  unfold finish
  cases out.halt <;> rfl

theorem exec_withCycles {i : Instr} {s t : State} (h : exec i s = .next t) (k : Nat) :
    exec i (withCycles k s) = .next (withCycles (k + (t.cycles - s.cycles)) t) := by
  obtain ⟨raw, rfl, hraw, rfl⟩ | ⟨hi, row, s', out, hrow, hbody, rfl⟩ := exec_cases h
  · rw [exec_illegal ((mem_illegalBytes raw).2 hraw)]
    simp [raiseIllegalOpcode, withCycles, setHalt]
  · have hbody' : bodyOf i (resolve (withCycles k s) i.operand).1
        (resolve (withCycles k s) i.operand).2 (withCycles k s) = some (withCycles k s', out) := by
      rw [resolve_withCycles, bodyOf_withCycles, hbody]
      rfl
    obtain ⟨-, hcycles, -⟩ := bodyOf_untouched hbody
    rw [exec_eq_execute hi, execute_of_some hrow hbody', resolve_withCycles, finish_withCycles,
      hcycles]
    rfl

/-- Settles O23: the three summands of the end of a step, and no body reads the counter. -/
theorem cyclesAreBasePlusPenaltyPlusExtra : Obligations.CyclesAreBasePlusPenaltyPlusExtra := by
  unfold Obligations.CyclesAreBasePlusPenaltyPlusExtra
  exact fun i s t row h hrow => ⟨exec_cycles h hrow, exec_withCycles h⟩

end Sys2Proof.Machine
end

section
/-! What each instruction leaves unchanged: flags, registers and memory (10_state.md R21-R26,
20_memory.md R48). -/

namespace Sys2Proof.Machine

/-- Beyond PC, the cycles and the halt fields, an instruction's next state is what its body leaves;
an illegal slot has no body and leaves the state. -/
theorem exec_effect {i : Instr} {s t : State} (h : exec i s = .next t) :
    ∃ s', t = { s' with
        pc := t.pc, cycles := t.cycles, halted := t.halted, haltReason := t.haltReason } ∧
      (s' = s ∨ i.mode ∈ i.op.modes ∧ ∃ out,
        bodyOf i (resolve s i.operand).1 (resolve s i.operand).2 s = some (s', out)) := by
  obtain ⟨raw, -, -, rfl⟩ | ⟨hi, row, s', out, hrow, hbody, rfl⟩ := exec_cases h
  · exact ⟨s, rfl, .inl rfl⟩
  · refine ⟨s', ?_, .inr ⟨(mode_mem_of_rowOf hi hrow).1, out, hbody⟩⟩
    unfold finish
    cases out.halt <;> rfl

/-! ### Flags -/

/-- Each flag of `q` is that of `p` unless the mnemonic is one of its writers (R26). -/
def FlagsKept (op : Op) (p q : Flags) : Prop :=
  (op ∉ carryWriters → q.c = p.c) ∧
    (op ∉ zeroNegativeWriters → q.z = p.z ∧ q.n = p.n) ∧
    (op ∉ interruptWriters → q.i = p.i) ∧
    (op ∉ decimalWriters → q.d = p.d) ∧
    (op ∉ overflowWriters → q.v = p.v)

namespace FlagsKept

variable {op : Op} {p : Flags}

theorem refl (op : Op) (p : Flags) : FlagsKept op p p :=
  ⟨fun _ => rfl, fun _ => ⟨rfl, rfl⟩, fun _ => rfl, fun _ => rfl, fun _ => rfl⟩

theorem nz (h : op ∈ zeroNegativeWriters) (v : Byte) : FlagsKept op p (p.nz v) :=
  ⟨fun _ => rfl, absurd h, fun _ => rfl, fun _ => rfl, fun _ => rfl⟩

/-- The shifts, the rotates and the compares. -/
theorem cnz (h : op ∈ zeroNegativeWriters) (hc : op ∈ carryWriters) (c z n : Bool) :
    FlagsKept op p { p with c := c, z := z, n := n } :=
  ⟨absurd hc, absurd h, fun _ => rfl, fun _ => rfl, fun _ => rfl⟩

theorem vnz (h : op ∈ zeroNegativeWriters) (hv : op ∈ overflowWriters) (v z n : Bool) :
    FlagsKept op p { p with z := z, n := n, v := v } :=
  ⟨fun _ => rfl, absurd h, fun _ => rfl, fun _ => rfl, absurd hv⟩

theorem ofSum (h : op ∈ zeroNegativeWriters) (hc : op ∈ carryWriters) (hv : op ∈ overflowWriters)
    (r : Sum) : FlagsKept op p (p.ofSum r) :=
  ⟨absurd hc, absurd h, fun _ => rfl, fun _ => rfl, absurd hv⟩

theorem carry (h : op ∈ carryWriters) (c : Bool) : FlagsKept op p { p with c := c } :=
  ⟨absurd h, fun _ => ⟨rfl, rfl⟩, fun _ => rfl, fun _ => rfl, fun _ => rfl⟩

theorem interrupt (h : op ∈ interruptWriters) (i : Bool) : FlagsKept op p { p with i := i } :=
  ⟨fun _ => rfl, fun _ => ⟨rfl, rfl⟩, absurd h, fun _ => rfl, fun _ => rfl⟩

theorem decimal (h : op ∈ decimalWriters) (d : Bool) : FlagsKept op p { p with d := d } :=
  ⟨fun _ => rfl, fun _ => ⟨rfl, rfl⟩, fun _ => rfl, absurd h, fun _ => rfl⟩

theorem overflow (h : op ∈ overflowWriters) (v : Bool) : FlagsKept op p { p with v := v } :=
  ⟨fun _ => rfl, fun _ => ⟨rfl, rfl⟩, fun _ => rfl, fun _ => rfl, absurd h⟩

/-- A mnemonic that writes every flag. -/
theorem all (hc : op ∈ carryWriters) (hz : op ∈ zeroNegativeWriters) (hi : op ∈ interruptWriters)
    (hd : op ∈ decimalWriters) (hv : op ∈ overflowWriters) (q : Flags) : FlagsKept op p q :=
  ⟨absurd hc, absurd hz, absurd hi, absurd hd, absurd hv⟩

end FlagsKept

theorem bodyOf_flags {i : Instr} {eo : EffectiveOperand} {cross : Bool} {s s' : State}
    {out : Report} (h : bodyOf i eo cross s = some (s', out)) :
    FlagsKept i.op s.flags s'.flags := by
  cases i with
    simp only [Instr.op, bodyOf, loadInto, combine, compareWith, transfer, setRegNZ, changeFlags,
      withOperand_eq_some, branchIf_eq_some, jumpTo_eq_some, plain_eq_some, storeFrom_eq_some,
      modifyOperand_eq_some, shiftOperand_eq_some, Option.some.injEq, Prod.mk.injEq, reduceCtorEq]
      at h ⊢
  | lda | ldx | ldy | and | ora | eor =>
    obtain ⟨m, -, rfl, -⟩ := h
    exact .nz (by decide) _
  | inx | iny | dex | dey | pla | tax | txa | tay | tya | tsx =>
    obtain ⟨rfl, -⟩ := h
    exact .nz (by decide) _
  | inc | dec =>
    obtain ⟨⟨ea, -, rfl⟩ | ⟨-, rfl⟩, -⟩ := h <;> exact .nz (by decide) _
  | asl | lsr | rol | ror =>
    obtain ⟨⟨ea, -, rfl⟩ | ⟨-, rfl⟩, -⟩ := h <;> exact .cnz (by decide) (by decide) _ _ _
  | cmp | cpx | cpy =>
    obtain ⟨m, -, rfl, -⟩ := h
    exact .cnz (by decide) (by decide) _ _ _
  | adc | sbc =>
    obtain ⟨m, -, rfl, -⟩ := h
    exact .ofSum (by decide) (by decide) (by decide) _
  | bit =>
    obtain ⟨m, -, rfl, -⟩ := h
    exact .vnz (by decide) (by decide) _ _ _
  | clc | sec =>
    obtain ⟨rfl, -⟩ := h
    exact .carry (by decide) _
  | cld | sed =>
    obtain ⟨rfl, -⟩ := h
    exact .decimal (by decide) _
  | cli | sei | brk =>
    obtain ⟨rfl, -⟩ := h
    exact .interrupt (by decide) _
  | clv =>
    obtain ⟨rfl, -⟩ := h
    exact .overflow (by decide) _
  | plp | rti =>
    exact .all (by decide) (by decide) (by decide) (by decide) (by decide) _
  | sta | stx | sty =>
    obtain ⟨⟨ea, -, rfl⟩ | ⟨-, rfl⟩, -⟩ := h <;> exact .refl _ _
  | bcc | bcs | beq | bne | bmi | bpl | bvc | bvs | jmp | jsr =>
    obtain ⟨ea, -, rfl, -⟩ := h
    exact .refl _ _
  | rts | pha | php | txs | nop =>
    obtain ⟨rfl, -⟩ := h
    exact .refl _ _

/-- Settles O24: each kind of body writes the flags of `bodyOf_flags`, the end of a step none. -/
theorem flagsChangeOnlyByTheirWriters : Obligations.FlagsChangeOnlyByTheirWriters := by
  unfold Obligations.FlagsChangeOnlyByTheirWriters
  intro i s t h
  obtain ⟨s', ht, heffect⟩ := exec_effect h
  rw [ht]
  obtain rfl | ⟨-, out, hbody⟩ := heffect
  · exact FlagsKept.refl _ _
  · exact (bodyOf_flags hbody :)

/-! ### Registers -/

/-- Each register of `s'` is that of `s` unless the mnemonic in the mode is one of its writers
(R21-R24). -/
def RegistersKept (op : Op) (mode : Mode) (s s' : State) : Prop :=
  (op ∉ accumulatorWriters → ¬(op ∈ shifts ∧ mode = .accumulator) → s'.a = s.a) ∧
    (op ∉ xWriters → s'.x = s.x) ∧
    (op ∉ yWriters → s'.y = s.y) ∧
    (op ∉ spWriters → s'.sp = s.sp)

namespace RegistersKept

variable {op : Op} {mode : Mode} {s s' : State}

theorem of_eq (ha : s'.a = s.a) (hx : s'.x = s.x) (hy : s'.y = s.y) (hsp : s'.sp = s.sp) :
    RegistersKept op mode s s' := ⟨fun _ _ => ha, fun _ => hx, fun _ => hy, fun _ => hsp⟩

theorem of_accumulatorWriter (h : op ∈ accumulatorWriters) (hx : s'.x = s.x) (hy : s'.y = s.y)
    (hsp : s'.sp = s.sp) : RegistersKept op mode s s' :=
  ⟨absurd h, fun _ => hx, fun _ => hy, fun _ => hsp⟩

/-- A shift writes A in its accumulator form. -/
theorem of_shift (h : op ∈ shifts) (hx : s'.x = s.x) (hy : s'.y = s.y) (hsp : s'.sp = s.sp) :
    RegistersKept op .accumulator s s' :=
  ⟨fun _ => absurd ⟨h, rfl⟩, fun _ => hx, fun _ => hy, fun _ => hsp⟩

theorem of_xWriter (h : op ∈ xWriters) (ha : s'.a = s.a) (hy : s'.y = s.y) (hsp : s'.sp = s.sp) :
    RegistersKept op mode s s' := ⟨fun _ _ => ha, absurd h, fun _ => hy, fun _ => hsp⟩

theorem of_yWriter (h : op ∈ yWriters) (ha : s'.a = s.a) (hx : s'.x = s.x) (hsp : s'.sp = s.sp) :
    RegistersKept op mode s s' := ⟨fun _ _ => ha, fun _ => hx, absurd h, fun _ => hsp⟩

theorem of_spWriter (h : op ∈ spWriters) (ha : s'.a = s.a) (hx : s'.x = s.x) (hy : s'.y = s.y) :
    RegistersKept op mode s s' := ⟨fun _ _ => ha, fun _ => hx, fun _ => hy, absurd h⟩

/-- PLA writes A and moves SP. -/
theorem pla (hx : s'.x = s.x) (hy : s'.y = s.y) : RegistersKept .pla mode s s' :=
  ⟨absurd (by decide), fun _ => hx, fun _ => hy, absurd (by decide)⟩

end RegistersKept

/-- Only the accumulator form resolves to A (R70). -/
theorem mode_of_resolve_acc {s : State} {o : Operand} (h : (resolve s o).1 = .acc) :
    o.mode = .accumulator := by
  cases o with
  | accumulator => rfl
  | _ => exact EffectiveOperand.noConfusion h

theorem bodyOf_registers {i : Instr} {cross : Bool} {s s' : State} {out : Report}
    (hmode : i.mode ∈ i.op.modes)
    (h : bodyOf i (resolve s i.operand).1 cross s = some (s', out)) :
    RegistersKept i.op i.mode s s' := by
  cases i with
    simp only [Instr.op, Instr.mode, Instr.operand, bodyOf, loadInto, combine, compareWith,
      transfer, setRegNZ, changeFlags, withOperand_eq_some, branchIf_eq_some, jumpTo_eq_some, plain_eq_some,
      storeFrom_eq_some, modifyOperand_eq_some, shiftOperand_eq_some, Option.some.injEq,
      Prod.mk.injEq, reduceCtorEq] at h hmode ⊢
  | lda | adc | sbc | and | ora | eor =>
    obtain ⟨m, -, rfl, -⟩ := h
    exact .of_accumulatorWriter (by decide) rfl rfl rfl
  | txa | tya =>
    obtain ⟨rfl, -⟩ := h
    exact .of_accumulatorWriter (by decide) rfl rfl rfl
  | pla =>
    obtain ⟨rfl, -⟩ := h
    exact .pla rfl rfl
  | asl | lsr | rol | ror =>
    obtain ⟨⟨ea, -, rfl⟩ | ⟨hacc, rfl⟩, -⟩ := h
    · exact .of_eq rfl rfl rfl rfl
    · rw [mode_of_resolve_acc hacc]
      exact .of_shift (by decide) rfl rfl rfl
  | sta | stx | sty | inc | dec =>
    obtain ⟨⟨ea, -, rfl⟩ | ⟨hacc, rfl⟩, -⟩ := h
    · exact .of_eq rfl rfl rfl rfl
    · rw [mode_of_resolve_acc hacc] at hmode
      exact absurd hmode (by decide)
  | ldx =>
    obtain ⟨m, -, rfl, -⟩ := h
    exact .of_xWriter (by decide) rfl rfl rfl
  | inx | dex | tax | tsx =>
    obtain ⟨rfl, -⟩ := h
    exact .of_xWriter (by decide) rfl rfl rfl
  | ldy =>
    obtain ⟨m, -, rfl, -⟩ := h
    exact .of_yWriter (by decide) rfl rfl rfl
  | iny | dey | tay =>
    obtain ⟨rfl, -⟩ := h
    exact .of_yWriter (by decide) rfl rfl rfl
  | jsr =>
    obtain ⟨ea, -, rfl, -⟩ := h
    exact .of_spWriter (by decide) rfl rfl rfl
  | pha | php | plp | rts | rti | txs =>
    obtain ⟨rfl, -⟩ := h
    exact .of_spWriter (by decide) rfl rfl rfl
  | brk =>
    obtain ⟨rfl, -⟩ := h
    obtain ⟨-, ha, hx, hy, -⟩ := enterBreak_fields s
    exact .of_spWriter (by decide) ha hx hy
  | bit | cmp | cpx | cpy | bcc | bcs | beq | bne | bmi | bpl | bvc | bvs | jmp =>
    obtain ⟨_, -, rfl, -⟩ := h
    exact .of_eq rfl rfl rfl rfl
  | clc | sec | cld | sed | cli | sei | clv | nop =>
    obtain ⟨rfl, -⟩ := h
    exact .of_eq rfl rfl rfl rfl

/-- Settles O25: each kind of body writes the registers of `bodyOf_registers`, and no instruction
the parameters. -/
theorem registersChangeOnlyByTheirWriters : Obligations.RegistersChangeOnlyByTheirWriters := by
  unfold Obligations.RegistersChangeOnlyByTheirWriters
  intro i s t h
  have hkept : RegistersKept i.op i.mode s t := by
    obtain ⟨s', ht, heffect⟩ := exec_effect h
    rw [ht]
    obtain rfl | ⟨hmode, out, hbody⟩ := heffect
    · exact .of_eq rfl rfl rfl rfl
    · exact (bodyOf_registers hmode hbody :)
  obtain ⟨ha, hx, hy, hsp⟩ := hkept
  exact ⟨ha, hx, hy, hsp, exec_cfg h⟩

/-! ### Memory -/

/-- The next three stack bytes are the slots of the three pushes (R52). -/
theorem pushAddrs_three (s : State) :
    pushAddrs 3 s = [pushSlot s 0, pushSlot s 1, pushSlot s 2] := by
  rw [← pushAddr_eq, ← pushAddr_push s 0, ← pushAddr_push_push s 0 0]
  rfl

theorem pushAddrs_two (s : State) : pushAddrs 2 s = [pushSlot s 0, pushSlot s 1] := by
  rw [← pushAddr_eq, ← pushAddr_push s 0]
  rfl

theorem pushAddrs_one (s : State) : pushAddrs 1 s = [pushAddr s] := rfl

/-- An instruction that writes its operand stores at its effective address (R48). -/
theorem storedAddrs_of_operandWriter {s : State} {i : Instr} {ea : Addr}
    (hi : i.op ∈ operandWriters) (hea : (resolve s i.operand).1 = .addr ea) :
    storedAddrs s i = [ea] := by
  rw [storedAddrs, if_pos (List.contains_iff_mem.2 hi), hea]

theorem bodyOf_memory {i : Instr} {cross : Bool} {s s' : State} {out : Report}
    (h : bodyOf i (resolve s i.operand).1 cross s = some (s', out)) {b : Addr}
    (hb : b ∉ storedAddrs s i) : memRead s' b = memRead s b := by
  have hoperand {ea : Addr} (hi : i.op ∈ operandWriters)
      (hea : (resolve s i.operand).1 = .addr ea) : b ≠ ea := by
    rwa [storedAddrs_of_operandWriter hi hea, List.mem_singleton] at hb
  cases i with
    simp only [Instr.op, bodyOf, loadInto, combine, compareWith, transfer,
      setRegNZ, changeFlags, withOperand_eq_some, branchIf_eq_some, jumpTo_eq_some, plain_eq_some,
      storeFrom_eq_some, modifyOperand_eq_some, shiftOperand_eq_some, Option.some.injEq,
      Prod.mk.injEq, reduceCtorEq] at h hoperand
  | sta | stx | sty | asl | lsr | rol | ror | inc | dec =>
    obtain ⟨⟨ea, hea, rfl⟩ | ⟨-, rfl⟩, -⟩ := h
    · exact memRead_memWrite_of_ne s _ (hoperand (by decide) hea)
    · rfl
  | pha | php =>
    obtain ⟨rfl, -⟩ := h
    rw [memRead_push, if_neg (mt List.mem_singleton.2 hb)]
  | jsr =>
    obtain ⟨ea, -, rfl, -⟩ := h
    change b ∉ pushAddrs 2 s at hb
    rw [pushAddrs_two, List.mem_pair, not_or] at hb
    rw [memRead_push16, if_neg hb.1, if_neg hb.2]
  | brk =>
    obtain ⟨rfl, -⟩ := h
    change b ∉ pushAddrs 3 s at hb
    rw [pushAddrs_three, List.mem_cons, List.mem_pair, not_or, not_or] at hb
    rw [memRead_enterBreak, if_neg hb.1, if_neg hb.2.1, if_neg hb.2.2]
  | lda | ldx | ldy | adc | sbc | and | ora | eor | bit | cmp | cpx | cpy | bcc | bcs | beq | bne
  | bmi | bpl | bvc | bvs | jmp =>
    obtain ⟨_, -, rfl, -⟩ := h
    rfl
  | _ =>
    obtain ⟨rfl, -⟩ := h
    rfl

/-- Settles O26: each kind of body stores at the addresses of `storedAddrs` only. -/
theorem memoryChangesOnlyWhereTheInstructionStores :
    Obligations.MemoryChangesOnlyWhereTheInstructionStores := by
  unfold Obligations.MemoryChangesOnlyWhereTheInstructionStores
  intro i s t h b hb
  obtain ⟨s', ht, heffect⟩ := exec_effect h
  rw [ht]
  obtain rfl | ⟨-, out, hbody⟩ := heffect
  · rfl
  · exact bodyOf_memory hbody hb

end Sys2Proof.Machine
end

section
/-! No behaviour depends on I but the pushed status byte (60_exceptions.md R236). -/

namespace Sys2Proof.Machine

/-- The state with another value of I. -/
def withI (b : Bool) (s : State) : State := { s with flags := { s.flags with i := b } }

theorem resolve_withI (b : Bool) (s : State) (o : Operand) :
    resolve (withI b s) o = resolve s o := resolve_congr rfl rfl rfl rfl o

/-- The value of I after a mnemonic that left `s'`, when I was `b` before it. -/
def laterI (op : Op) (s' : State) (b : Bool) : Bool :=
  if op ∈ interruptWriters then s'.flags.i else b

/-- The bodies but those of PHP and BRK have the same effect and the same report whatever I is, but
for I itself. -/
theorem bodyOf_withI {i : Instr} (hphp : i.op ≠ .php) (hbrk : i.op ≠ .brk) (eo : EffectiveOperand)
    (cross : Bool) (b : Bool) (s : State) :
    bodyOf i eo cross (withI b s) =
      (bodyOf i eo cross s).map fun r => (withI (laterI i.op r.1 b) r.1, r.2) := by
  cases i with
  | php => exact absurd rfl hphp
  | brk => exact absurd rfl hbrk
  | bcc | bcs | beq | bne | bmi | bpl | bvc | bvs =>
    cases eo with
    | addr ea =>
      simp only [bodyOf, branchIf, apply_ite (Option.map _)]
      rfl
    | _ => rfl
  | lda | ldx | ldy | sta | stx | sty | adc | sbc | and | ora | eor | bit | asl | lsr | rol | ror
  | inc | dec | cmp | cpx | cpy | jmp | jsr => cases eo <;> rfl
  | _ => rfl

theorem finish_withI (row : OpcodeRow) (cross : Bool) (pc0 : Addr) (out : Report) (b : Bool)
    (s : State) :
    finish row cross pc0 out (withI b s) = withI b (finish row cross pc0 out s) := by
  unfold finish
  cases out.halt <;> rfl

/-- Settles O27: the resolver reads no flag, `bodyOf_withI` is the body's part, and the end of a
step reads none either. -/
theorem interruptFlagAffectsNothingElse : Obligations.InterruptFlagAffectsNothingElse := by
  unfold Obligations.InterruptFlagAffectsNothingElse
  intro i s t b hphp hbrk h
  change exec i (withI b s) = .next (withI (laterI i.op t b) t)
  obtain ⟨raw, rfl, hraw, rfl⟩ | ⟨hi, row, s', out, hrow, hbody, rfl⟩ := exec_cases h
  · rw [exec_illegal ((mem_illegalBytes raw).2 hraw)]
    rfl
  · have hbody' : bodyOf i (resolve (withI b s) i.operand).1 (resolve (withI b s) i.operand).2
        (withI b s) = some (withI (laterI i.op s' b) s', out) := by
      rw [resolve_withI, bodyOf_withI hphp hbrk, hbody]
      rfl
    obtain ⟨-, -, -, -, hflags, -⟩ := finish_keeps row (resolve s i.operand).2 s.pc out s'
    rw [exec_eq_execute hi, execute_of_some hrow hbody', resolve_withI, finish_withI, laterI,
      laterI, hflags]
    rfl

end Sys2Proof.Machine
end

section
/-! Zero-page pointers and branch targets in numbers (30_encoding.md R77-R79). -/

namespace Sys2Proof.Machine

/-- The pointer's low byte is read in page 0 (R78, R79). -/
theorem toNat_zeroPageWord_mod (s : State) (p : Byte) :
    (zeroPageWord s p).toNat % 256 = (memRead s (BitVec.ofNat 16 p.toNat)).toNat := by
  rw [zeroPageWord, toNat_word_mod, zext16_eq_ofNat]

/-- The pointer's high byte is read at the next byte of page 0 (R78, R79). -/
theorem toNat_zeroPageWord_div (s : State) (p : Byte) :
    (zeroPageWord s p).toNat / 256 = (memRead s (BitVec.ofNat 16 ((p.toNat + 1) % 256))).toNat := by
  rw [zeroPageWord, toNat_word_div, zext16_add_eq_ofNat]
  rfl

/-- Settles O31: IndirectX and IndirectY go through `zeroPageWord`, and `toNat_branchTarget` gives
the branch target. -/
theorem zeroPagePointerAndRelativeModesResolve :
    Obligations.ZeroPagePointerAndRelativeModesResolve := by
  unfold Obligations.ZeroPagePointerAndRelativeModesResolve
  refine fun s b => ⟨⟨zeroPageWord s (b + s.x), rfl, ?xLow, ?xHigh⟩, ?indirectY, ?relative⟩
  case xLow => rw [toNat_zeroPageWord_mod, BitVec.toNat_add]
  case xHigh => rw [toNat_zeroPageWord_div, BitVec.toNat_add, Nat.mod_add_mod]
  case indirectY =>
    obtain ⟨ea, hea, hindexed⟩ := exists_indexed_eq (zeroPageWord s b) s.y
    exact ⟨zeroPageWord s b, ea, toNat_zeroPageWord_mod s b, toNat_zeroPageWord_div s b, hea,
      hindexed⟩
  case relative =>
    have hnext : (s.pc + 2).toNat = (s.pc.toNat + 2) % 65536 := BitVec.toNat_add s.pc 2
    refine ⟨s.pc + 2 + sext16 b, s.pc + 2, hnext, ?_, ?_⟩
    · rw [toNat_branchTarget, hnext]
      push_cast
      rw [Int.emod_add_emod]
    · rw [resolve, branchTarget, pageCross_eq]

end Sys2Proof.Machine
end

section
/-! The binary and the decimal cores in numbers, and ADC and SBC (42_arithmetic.md). -/

namespace Sys2Proof.Machine

/-! ### The binary cores -/

theorem toNat_addBin (a m : Byte) (c : Bool) :
    (addBin a m c).r.toNat = (a.toNat + m.toNat + c.toNat) % 256 :=
  BitVec.toNat_ofNat _ _

theorem addBin_c (a m : Byte) (c : Bool) :
    (addBin a m c).c = decide (a.toNat + m.toNat + c.toNat ≥ 256) := rfl

theorem addBin_z (a m : Byte) (c : Bool) : (addBin a m c).z = decide ((addBin a m c).r = 0#8) := rfl

theorem addBin_n (a m : Byte) (c : Bool) :
    (addBin a m c).n = decide ((addBin a m c).r.toNat ≥ 128) := getLsbD_7 _

/-- The signed view of a byte. -/
theorem toInt_byte (b : Byte) :
    b.toInt = if b.toNat < 128 then (b.toNat : Int) else (b.toNat : Int) - 256 := by
  rw [BitVec.toInt_eq_toNat_cond]
  have := b.isLt
  split_ifs <;> omega

/-- V is set when the operands have the same sign and the result the other (R120). -/
theorem addBin_v_signs (a m : Byte) (c : Bool) : (addBin a m c).v = true ↔
    (a.toNat ≥ 128 ↔ m.toNat ≥ 128) ∧ ¬(a.toNat ≥ 128 ↔ (addBin a m c).r.toNat ≥ 128) := by
  have hbits : (addBin a m c).v = (!(a.getLsbD 7 ^^ m.getLsbD 7) &&
      (a.getLsbD 7 ^^ (addBin a m c).r.getLsbD 7)) := by
    simp [addBin]
  rw [hbits, getLsbD_7, getLsbD_7, getLsbD_7, Bool.and_eq_true, Bool.not_eq_true',
    bne_eq_false_iff_eq, bne_iff_ne, ne_eq, decide_eq_decide, decide_eq_decide]

/-- The rule of signs says whether the signed sum leaves the range of a byte (R120). -/
theorem addBin_v (a m : Byte) (c : Bool) : (addBin a m c).v = true ↔
    ¬(-128 ≤ a.toInt + m.toInt + c.toNat ∧ a.toInt + m.toInt + c.toNat ≤ 127) := by
  have ha := a.isLt
  have hm := m.isLt
  have hc := c.toNat_le
  rw [addBin_v_signs, toNat_addBin, toInt_byte, toInt_byte]
  split_ifs <;> omega

/-- Settles O35: the subtraction is the addition of the complement, which is 255 less the byte. -/
theorem binaryCoresComputeSumAndOverflow : Obligations.BinaryCoresComputeSumAndOverflow := by
  unfold Obligations.BinaryCoresComputeSumAndOverflow
  intro a m c
  have hm := m.isLt
  have hc := c.toNat_le
  have hnot : (~~~m).toNat = 255 - m.toNat := by simp [BitVec.toNat_not]
  refine ⟨⟨toNat_addBin a m c, ?_, addBin_v a m c, ?_, ?_⟩, ⟨?_, ?_, ?_, ?_, ?_⟩⟩
  · rw [addBin_c, decide_eq_true_eq]
  · rw [addBin_z, decide_eq_true_eq]
  · rw [addBin_n, decide_eq_true_eq]
  · rw [subBin, toNat_addBin, hnot]
    omega
  · rw [subBin, addBin_c, decide_eq_true_eq, hnot]
    omega
  · rw [subBin, addBin_v, toInt_byte (~~~m), toInt_byte m, hnot]
    split_ifs <;> omega
  · rw [subBin, addBin_z, decide_eq_true_eq]
  · rw [subBin, addBin_n, decide_eq_true_eq]

/-! ### The decimal cores -/

theorem toNat_lowDigit (b : Byte) : (b &&& 0x0F#8).toNat = b.toNat % 16 := by
  rw [BitVec.toNat_and]
  exact Nat.and_two_pow_sub_one_eq_mod b.toNat 4

theorem toNat_highDigit : ∀ b : Byte, (b &&& 0xF0#8).toNat = 16 * (b.toNat / 16) := by
  decide +kernel

theorem toInt_highDigit (b : Byte) : (b &&& 0xF0#8).toInt =
    if 16 * (b.toNat / 16) ≥ 128 then ((16 * (b.toNat / 16) : Nat) : Int) - 256
    else ((16 * (b.toNat / 16) : Nat) : Int) := by
  rw [toInt_byte, toNat_highDigit]
  split_ifs <;> omega

/-- Settles O37: masking gives the two digits, and the corrections are those of the cores. -/
theorem decimalCoresOnEveryByte : Obligations.DecimalCoresOnEveryByte := by
  unfold Obligations.DecimalCoresOnEveryByte
  refine fun a m c => ⟨?add, ?sub⟩
  case add =>
    intro signed low al t ts
    have hcore : addDec a m c = {
        r := BitVec.ofNat 8 (if t ≥ 160 then t + 96 else t)
        c := decide ((if t ≥ 160 then t + 96 else t) ≥ 256)
        z := (addBin a m c).z
        v := decide (ts < -128 ∨ ts > 127)
        n := t.testBit 7 } := by
      simp only [addDec, toNat_lowDigit, toNat_highDigit, toInt_highDigit, t, ts, al, low, signed]
    rw [hcore]
    refine ⟨BitVec.toNat_ofNat _ _, ?_, ?_, decide_eq_true_iff, ?_⟩
    · rw [decide_eq_true_eq]
      split_ifs <;> omega
    · rw [addBin_z, decide_eq_true_eq, ← BitVec.toNat_inj, toNat_addBin]
      rfl
    · rw [Nat.testBit_eq_decide_div_mod_eq, decide_eq_true_eq]
  case sub =>
    intro low al t
    have hcore : subDec a m c =
        { subBin a m c with r := BitVec.ofInt 8 (if t < 0 then t - 96 else t) } := by
      simp only [subDec, toNat_lowDigit, toNat_highDigit, t, al, low]
      push_cast
      rfl
    rw [hcore]
    refine ⟨?_, rfl, rfl, rfl, rfl⟩
    rw [BitVec.toNat_ofInt]
    exact Int.toNat_of_nonneg (Int.emod_nonneg _ (by decide))

theorem isBcd_iff (b : Byte) : isBcd b = true ↔ b.toNat / 16 < 10 ∧ b.toNat % 16 < 10 := by
  rw [isBcd, Bool.and_eq_true, decide_eq_true_eq, decide_eq_true_eq]

/-- A byte with the decimal digits `h` and `l` stands for the number modulo 100 they make. -/
theorem decimal_of_digits {r n h l : Nat} (hr : r = 16 * h + l) (hl : l < 10)
    (hn : n % 100 = 10 * h + l) :
    (r / 16 < 10 ∧ r % 16 < 10) ∧ 10 * (r / 16) + r % 16 = n % 100 := by
  omega

/-- The digit corrections of an addition of two-digit numbers carry to the next digit. -/
theorem decimal_add_digits {a1 a0 m1 m0 c r : Nat} (ha1 : a1 < 10) (ha0 : a0 < 10) (hm1 : m1 < 10)
    (hm0 : m0 < 10) (hc : c ≤ 1)
    (hr : let al := if a0 + m0 + c ≥ 10 then (a0 + m0 + c + 6) % 16 + 16 else a0 + m0 + c
      r = (if 16 * a1 + 16 * m1 + al ≥ 160 then 16 * a1 + 16 * m1 + al + 96
        else 16 * a1 + 16 * m1 + al) % 256) :
    (r / 16 < 10 ∧ r % 16 < 10) ∧
      10 * (r / 16) + r % 16 = (10 * a1 + a0 + (10 * m1 + m0) + c) % 100 := by
  dsimp only at hr
  by_cases hlow : a0 + m0 + c ≥ 10
  · rw [if_pos hlow] at hr
    have hcarry : (a0 + m0 + c + 6) % 16 + 16 = 16 + (a0 + m0 + c - 10) := by omega
    rw [hcarry] at hr
    split_ifs at hr
    · exact decimal_of_digits (h := a1 + m1 + 1 - 10) (l := a0 + m0 + c - 10) (by omega) (by omega)
        (by omega)
    · exact decimal_of_digits (h := a1 + m1 + 1) (l := a0 + m0 + c - 10) (by omega) (by omega)
        (by omega)
  · rw [if_neg hlow] at hr
    split_ifs at hr
    · exact decimal_of_digits (h := a1 + m1 - 10) (l := a0 + m0 + c) (by omega) (by omega)
        (by omega)
    · exact decimal_of_digits (h := a1 + m1) (l := a0 + m0 + c) (by omega) (by omega)
        (by omega)

/-- The corrected value reaches 160 exactly when the sum of the numbers reaches 100. -/
theorem decimal_add_carry {a1 a0 m1 m0 c : Nat} (ha0 : a0 < 10) (hm0 : m0 < 10) (hc : c ≤ 1) :
    (16 * a1 + 16 * m1 +
      if a0 + m0 + c ≥ 10 then (a0 + m0 + c + 6) % 16 + 16 else a0 + m0 + c) ≥ 160 ↔
    10 * a1 + a0 + (10 * m1 + m0) + c ≥ 100 := by
  split_ifs <;> omega

/-- The digit corrections of a subtraction of two-digit numbers borrow from the next digit. -/
theorem decimal_sub_digits {a1 a0 m1 m0 c r : Nat} (ha1 : a1 < 10) (ha0 : a0 < 10) (hm1 : m1 < 10)
    (hm0 : m0 < 10) (hc : c ≤ 1)
    (hr : let low : Int := a0 - m0 + c - 1
      let al := if low < 0 then (low - 6) % 16 - 16 else low
      (r : Int) = (if 16 * (a1 : Int) - 16 * m1 + al < 0 then 16 * (a1 : Int) - 16 * m1 + al - 96
        else 16 * (a1 : Int) - 16 * m1 + al) % 256) :
    (r / 16 < 10 ∧ r % 16 < 10) ∧
      10 * (r / 16) + r % 16 = (10 * a1 + a0 + 100 - (10 * m1 + m0) - (1 - c)) % 100 := by
  dsimp only at hr
  by_cases hlow : (a0 : Int) - m0 + c - 1 < 0
  · rw [if_pos hlow] at hr
    have hborrow : ((a0 : Int) - m0 + c - 1 - 6) % 16 - 16 = a0 - m0 + c - 1 + 10 - 16 := by omega
    rw [hborrow] at hr
    split_ifs at hr
    · exact decimal_of_digits (h := a1 + 9 - m1) (l := a0 + c + 9 - m0) (by omega) (by omega)
        (by omega)
    · exact decimal_of_digits (h := a1 - m1 - 1) (l := a0 + c + 9 - m0) (by omega) (by omega)
        (by omega)
  · rw [if_neg hlow] at hr
    split_ifs at hr
    · exact decimal_of_digits (h := a1 + 10 - m1) (l := a0 + c - 1 - m0) (by omega) (by omega)
        (by omega)
    · exact decimal_of_digits (h := a1 - m1) (l := a0 + c - 1 - m0) (by omega) (by omega)
        (by omega)

/-- Settles O36: a decimal operand has two digits below 10, and on them the corrections of
`decimalCoresOnEveryByte` carry to and borrow from the next digit. -/
theorem decimalCoresAreDecimalArithmetic : Obligations.DecimalCoresAreDecimalArithmetic := by
  unfold Obligations.DecimalCoresAreDecimalArithmetic
  intro a m c ha hm
  rw [isBcd_iff] at ha hm
  obtain ⟨ha1, ha0⟩ := ha
  obtain ⟨hm1, hm0⟩ := hm
  obtain ⟨⟨haddR, haddC, -⟩, hsubR, hflags⟩ := decimalCoresOnEveryByte a m c
  obtain ⟨haddBcd, haddValue⟩ := decimal_add_digits ha1 ha0 hm1 hm0 c.toNat_le haddR
  obtain ⟨hsubBcd, hsubValue⟩ :=
    decimal_sub_digits ha1 ha0 hm1 hm0 c.toNat_le (by exact_mod_cast hsubR)
  refine ⟨⟨(isBcd_iff _).2 haddBcd, haddValue, ?addC, rfl⟩,
    ⟨(isBcd_iff _).2 hsubBcd, hsubValue, ?subC, hflags⟩⟩
  case addC => exact haddC.trans (decimal_add_carry ha0 hm0 c.toNat_le)
  case subC =>
    obtain ⟨-, -, hborrow, -⟩ := binaryCoresComputeSumAndOverflow a m c
    rw [hflags.1, hborrow, bcdValue, bcdValue]
    omega

/-! ### ADC and SBC -/

theorem adcSum_eq (s : State) (m : Byte) : adcSum s m =
    if s.flags.d = true ∧ s.cfg.decimalEnabled = true then addDec s.a m s.flags.c
    else addBin s.a m s.flags.c := by
  simp only [adcSum, decimalMode, Bool.and_eq_true]

theorem sbcSum_eq (s : State) (m : Byte) : sbcSum s m =
    if s.flags.d = true ∧ s.cfg.decimalEnabled = true then subDec s.a m s.flags.c
    else addBin s.a (~~~m) s.flags.c := by
  simp only [sbcSum, decimalMode, Bool.and_eq_true, subBin]

/-- ADC in the forms of its rule (R124). -/
theorem operandInstr_adc : OperandInstr .adc .adc (withOperand fun s m => setSum s (adcSum s m))
    (readForms 0x61#8 0x65#8 0x69#8 0x6D#8 0x71#8 0x75#8 0x79#8 0x7D#8) :=
  ⟨fun _ => rfl, fun _ => rfl, fun _ => rfl, by decide, by decide +kernel⟩

/-- SBC in the forms of its rule (R125). -/
theorem operandInstr_sbc : OperandInstr .sbc .sbc (withOperand fun s m => setSum s (sbcSum s m))
    (readForms 0xE1#8 0xE5#8 0xE9#8 0xED#8 0xF1#8 0xF5#8 0xF9#8 0xFD#8) :=
  ⟨fun _ => rfl, fun _ => rfl, fun _ => rfl, by decide, by decide +kernel⟩

/-- Settles O34: both read their operand once and write the sum that `adcSum_eq` and `sbcSum_eq`
name. -/
theorem adcAndSbcWriteTheSum : Obligations.AdcAndSbcWriteTheSum := by
  unfold Obligations.AdcAndSbcWriteTheSum
  refine ⟨?adc, ?sbc⟩
  case adc =>
    exact operandInstr_adc.readsOperand rfl (by decide)
      (fun s m => congrArg (setSum s) (adcSum_eq s m)) fun _ _ => rfl
  case sbc =>
    exact operandInstr_sbc.readsOperand rfl (by decide)
      (fun s m => congrArg (setSum s) (sbcSum_eq s m)) fun _ _ => rfl

/-- ADC of a literal byte. -/
theorem exec_adc_immediate (s : State) (b : Byte) : exec (.adc (.immediate b)) s =
    .next (past ⟨0x69#8, .immediate, 2, 2, false⟩ false s (setSum s (adcSum s b))) :=
  operandInstr_adc.exec_past (by decide) rfl rfl rfl

/-- SBC of a literal byte. -/
theorem exec_sbc_immediate (s : State) (b : Byte) : exec (.sbc (.immediate b)) s =
    .next (past ⟨0xE9#8, .immediate, 2, 2, false⟩ false s (setSum s (sbcSum s b))) :=
  operandInstr_sbc.exec_past (by decide) rfl rfl rfl

/-- Subtracting with the complemented carry undoes an addition and complements its carry (R126). -/
theorem subBin_addBin (a b : Byte) (c : Bool) :
    (subBin (addBin a b c).r b (!c)).r = a ∧
      (subBin (addBin a b c).r b (!c)).c = !(addBin a b c).c := by
  have ha := a.isLt
  have hb := b.isLt
  have hc := c.toNat_le
  have hnot : (!c).toNat = 1 - c.toNat := by cases c <;> rfl
  have hcompl : (~~~b).toNat = 255 - b.toNat := by simp [BitVec.toNat_not]
  constructor
  · apply BitVec.eq_of_toNat_eq
    rw [subBin, toNat_addBin, toNat_addBin, hnot, hcompl]
    omega
  · rw [subBin, addBin_c, addBin_c, toNat_addBin, hnot, hcompl, ← decide_not, decide_eq_decide]
    omega

/-- Settles O38: in binary mode both instructions use the binary cores, and `subBin_addBin` is the
duality. -/
theorem sbcUndoesAdc : Obligations.SbcUndoesAdc := by
  unfold Obligations.SbcUndoesAdc
  intro s b hbinary
  have hmode : ¬(s.flags.d = true ∧ s.cfg.decimalEnabled = true) := by
    rintro ⟨hd, he⟩
    simp [hd, he] at hbinary
  obtain ⟨ha, hc⟩ := subBin_addBin s.a b s.flags.c
  have hadd : adcSum s b = addBin s.a b s.flags.c := (adcSum_eq s b).trans (if_neg hmode)
  refine ⟨_, _, exec_adc_immediate s b, exec_sbc_immediate _ b, ?_⟩
  rw [hadd, sbcSum_eq, if_neg (by exact hmode)]
  exact ⟨ha, hc⟩

end Sys2Proof.Machine
end

section
/-! The shifts and rotates (44_shift_rotate.md). -/

namespace Sys2Proof.Machine

/-! ### The shifted byte and the bit shifted out, in numbers -/

theorem aslByte_eq : ∀ (c : Bool) (m : Byte),
    aslByte c m = (BitVec.ofNat 8 (2 * m.toNat), decide (m.toNat ≥ 128)) := by
  decide +kernel

theorem lsrByte_eq : ∀ (c : Bool) (m : Byte),
    lsrByte c m = (BitVec.ofNat 8 (m.toNat / 2), decide (m.toNat % 2 = 1)) := by
  decide +kernel

theorem rolByte_eq : ∀ (c : Bool) (m : Byte),
    rolByte c m = (BitVec.ofNat 8 (2 * m.toNat + c.toNat), decide (m.toNat ≥ 128)) := by
  decide +kernel

theorem rorByte_eq : ∀ (c : Bool) (m : Byte),
    rorByte c m = (BitVec.ofNat 8 (m.toNat / 2 + 128 * c.toNat), decide (m.toNat % 2 = 1)) := by
  decide +kernel

/-! ### The forms -/

section
variable {f : Bool → Byte → Byte × Bool} {r : Bool → Byte → Byte} {out : Byte → Bool}

/-- On a memory operand a shift stores the new byte and sets C, Z and N (R140). -/
theorem shiftOperand_addr (hf : ∀ c m, f c m = (r c m, out m)) (ea : Addr) (cross : Bool)
    (s : State) : shiftOperand f (.addr ea) cross s =
      some (setFlags (memWrite s ea (r s.flags.c (memRead s ea)))
        (shiftFlags out r s (memRead s ea)), {}) := by
  refine shiftOperand_eq_some.2 ⟨.inl ⟨ea, rfl, ?_⟩, rfl⟩
  rw [hf, setNZ_eq_flagsNZ]
  rfl

/-- On the accumulator a shift writes A and sets C, Z and N (R140). -/
theorem shiftOperand_acc (hf : ∀ c m, f c m = (r c m, out m)) (cross : Bool) (s : State) :
    shiftOperand f .acc cross s =
      some ({ s with a := r s.flags.c s.a, flags := shiftFlags out r s s.a }, {}) := by
  refine shiftOperand_eq_some.2 ⟨.inr ⟨rfl, ?_⟩, rfl⟩
  rw [hf, setNZ_eq_flagsNZ]
  rfl

/-- A shift or rotate in its accumulator form and in forms that all have a memory operand. -/
theorem OperandInstr.shifts {mk : Operand → Instr} {op : Op} {acc : Byte} {forms : List Form}
    (h : OperandInstr mk op (shiftOperand f) (oneByte acc .accumulator 2 :: forms))
    (hf : ∀ c m, f c m = (r c m, out m))
    (hmodes : op.modes.Perm (.accumulator :: forms.map Form.mode))
    (hmemory : ∀ q ∈ forms, q.mode ∉ [Mode.implied, .accumulator, .immediate]) :
    Shifts mk acc forms r out := by
  have hmemoryForms : OperandInstr mk op (shiftOperand f) forms :=
    { h with rows := fun q hq => h.rows q (List.mem_cons_of_mem _ hq) }
  have hoperand := h.operand_eq .accumulator
  have hmode : (mk .accumulator).mode = .accumulator := congrArg Operand.mode hoperand
  refine ⟨h.hasModes.of_perm hmodes, ?accumulator,
    hmemoryForms.modifiesMemory hmemory (shiftOperand_addr hf)⟩
  refine oneByte_of_isRowOf (h.op_ne_illegal _) ?_ (fun s => ?_) fun _ => rfl
  · rw [hmode, h.op_eq]
    exact h.rows _ List.mem_cons_self
  · rw [h.bodyOf_eq, hoperand]
    exact shiftOperand_acc hf _ s

end

/-- Settles O41: each of the four moves the bit that its byte function moves, in the five forms of
the opcode table. -/
theorem shiftsAndRotatesMoveOneBit : Obligations.ShiftsAndRotatesMoveOneBit := by
  unfold Obligations.ShiftsAndRotatesMoveOneBit
  refine ⟨?asl, ?lsr, ?rol, ?ror⟩
  case asl =>
    exact OperandInstr.shifts (op := .asl)
      ⟨fun _ => rfl, fun _ => rfl, fun _ => rfl, by decide, by decide +kernel⟩ aslByte_eq
      (by decide) (by decide)
  case lsr =>
    exact OperandInstr.shifts (op := .lsr)
      ⟨fun _ => rfl, fun _ => rfl, fun _ => rfl, by decide, by decide +kernel⟩ lsrByte_eq
      (by decide) (by decide)
  case rol =>
    exact OperandInstr.shifts (op := .rol)
      ⟨fun _ => rfl, fun _ => rfl, fun _ => rfl, by decide, by decide +kernel⟩ rolByte_eq
      (by decide) (by decide)
  case ror =>
    exact OperandInstr.shifts (op := .ror)
      ⟨fun _ => rfl, fun _ => rfl, fun _ => rfl, by decide, by decide +kernel⟩ rorByte_eq
      (by decide) (by decide)

/-! ### Rotating A nine times -/

/-- The nine bits C and A rotated left by one. -/
def rotateNine (p : Bool × Byte) : Bool × Byte := ((rolByte p.1 p.2).2, (rolByte p.1 p.2).1)

/-- ROL A rotates the nine bits C and A. -/
theorem exec_rol_accumulator (s : State) : ∃ t, nextOf (exec (.rol .accumulator) s) = some t ∧
    (t.flags.c, t.a) = rotateNine (s.flags.c, s.a) := by
  obtain ⟨-, -, ⟨-, hrol, -⟩, -⟩ := shiftsAndRotatesMoveOneBit
  refine ⟨_, congrArg nextOf (hrol.2 s), ?_⟩
  rw [rotateNine, rolByte_eq]
  rfl

/-- Running ROL A `n` times rotates the nine bits `n` times. -/
theorem iterate_rol_accumulator (n : Nat) (s : State) : ∃ t,
    (fun r : Option State => r.bind fun u => nextOf (exec (.rol .accumulator) u))^[n] (some s) =
      some t ∧ (t.flags.c, t.a) = rotateNine^[n] (s.flags.c, s.a) := by
  induction n with
  | zero => exact ⟨s, rfl, rfl⟩
  | succ n ih =>
    obtain ⟨u, hu, hbits⟩ := ih
    obtain ⟨t, ht, hrotated⟩ := exec_rol_accumulator u
    refine ⟨t, ?_, ?_⟩
    · rw [Function.iterate_succ_apply', hu]
      exact ht
    · rw [Function.iterate_succ_apply', ← hbits, hrotated]

theorem rotateNine_nine : ∀ (c : Bool) (a : Byte), rotateNine^[9] (c, a) = (c, a) := by
  decide +kernel

/-- Settles O42: nine rotations of nine bits are the identity. -/
theorem nineRotationsRestoreAAndC : Obligations.NineRotationsRestoreAAndC := by
  unfold Obligations.NineRotationsRestoreAAndC
  intro s
  obtain ⟨t, ht, hbits⟩ := iterate_rol_accumulator 9 s
  rw [rotateNine_nine] at hbits
  obtain ⟨hc, ha⟩ := Prod.mk.inj hbits
  exact ⟨t, ht, ha, hc⟩

end Sys2Proof.Machine
end

section
/-! The conditional branches (47_branch.md). -/

namespace Sys2Proof.Machine

/-- An instruction runs its body and ends by its form's entry in the opcode table (R96, R97). -/
theorem exec_of_isRowOf {i : Instr} {f : Form} (hi : i.op ≠ .illegal) (hf : f.IsRowOf i.op)
    (hm : i.mode = f.mode) {s s' : State} {out : Report}
    (hbody : bodyOf i (resolve s i.operand).1 (resolve s i.operand).2 s = some (s', out)) :
    exec i s = .next (finish ⟨i.op, f.size, f.cycles, f.mode, f.pen⟩ (resolve s i.operand).2 s.pc
      out s') := by
  rw [exec_eq_execute hi]
  have hmode : i.operand.mode = f.mode := hm
  exact execute_of_opcode (hmode ▸ hf.1) hf.2 hbody

/-- `mk` builds the branches of a legal mnemonic from their displacements: their one form has the
opcode `code`, and each tests `cond`. -/
structure BranchInstr (mk : Byte → Instr) (op : Op) (code : Byte) (cond : Flags → Bool) : Prop where
  op_eq : ∀ disp, (mk disp).op = op
  operand_eq : ∀ disp, (mk disp).operand = .relative disp
  bodyOf_eq : ∀ disp, bodyOf (mk disp) = branchIf cond
  legal : op ≠ .illegal
  row : (⟨code, .relative, 2, 2, false⟩ : Form).IsRowOf op

namespace BranchInstr

variable {mk : Byte → Instr} {op : Op} {code : Byte} {cond : Flags → Bool}

theorem op_ne_illegal (h : BranchInstr mk op code cond) (disp : Byte) : (mk disp).op ≠ .illegal :=
  h.op_eq disp ▸ h.legal

theorem isRowOf (h : BranchInstr mk op code cond) (disp : Byte) :
    (⟨code, .relative, 2, 2, false⟩ : Form).IsRowOf (mk disp).op := h.op_eq disp ▸ h.row

theorem mode_eq (h : BranchInstr mk op code cond) (disp : Byte) : (mk disp).mode = .relative :=
  congrArg Operand.mode (h.operand_eq disp)

theorem encode_eq (h : BranchInstr mk op code cond) (disp : Byte) :
    encode (mk disp) = [code, disp] := by
  have hbytes := encodes_of_isRowOf (h.op_ne_illegal disp) (h.isRowOf disp) (h.mode_eq disp)
  rw [hbytes.1, h.operand_eq]
  rfl

/-- A branch ends as its body reports (R170). -/
theorem exec_eq (h : BranchInstr mk op code cond) (disp : Byte) (s : State) :
    exec (mk disp) s = .next (finish ⟨(mk disp).op, 2, 2, .relative, false⟩
      (branchTarget s.pc disp).2 s.pc
      (if cond s.flags then
        { nextPc := some (s.pc + 2 + sext16 disp), extra := 1 + (branchTarget s.pc disp).2.toNat }
      else {}) s) := by
  have hbody : bodyOf (mk disp) (resolve s (mk disp).operand).1 (resolve s (mk disp).operand).2 s =
      some (s, if cond s.flags then
        { nextPc := some (s.pc + 2 + sext16 disp), extra := 1 + (branchTarget s.pc disp).2.toNat }
        else {}) := by
    rw [h.bodyOf_eq, h.operand_eq, branchIf_eq_some]
    exact ⟨_, rfl, rfl, rfl⟩
  rw [exec_of_isRowOf (h.op_ne_illegal disp) (h.isRowOf disp) (h.mode_eq disp) hbody, h.operand_eq]
  rfl

theorem exec_not_taken (h : BranchInstr mk op code cond) (disp : Byte) {s : State}
    (hcond : cond s.flags = false) :
    exec (mk disp) s = .next { s with pc := s.pc + 2, cycles := s.cycles + 2 } := by
  rw [h.exec_eq, hcond]
  rfl

/-- The cycles of a taken branch: 3, and 4 across a page (R170). -/
theorem taken_cycles (p q : Addr) :
    2 + (if false && pageCross p q then 1 else 0) + (1 + (pageCross p q).toNat) =
      if p.toNat / 256 = q.toNat / 256 then 3 else 4 := by
  rw [pageCross_eq]
  by_cases hpage : p.toNat / 256 = q.toNat / 256 <;> simp [hpage]

theorem exec_taken (h : BranchInstr mk op code cond) (disp : Byte) {s : State}
    (hcond : cond s.flags = true) : ∃ target : Addr,
      (target.toNat : Int) = (s.pc.toNat + 2 + disp.toInt) % 65536 ∧
      exec (mk disp) s = .next { s with
        pc := target
        cycles := s.cycles +
          (if target.toNat / 256 = (s.pc.toNat + 2) % 65536 / 256 then 3 else 4) } := by
  have hnext : (s.pc + 2).toNat = (s.pc.toNat + 2) % 65536 := BitVec.toNat_add s.pc 2
  refine ⟨s.pc + 2 + sext16 disp, toNat_branchTarget s.pc disp, ?_⟩
  rw [h.exec_eq, hcond, if_pos rfl, finish_no_halt, branchTarget, taken_cycles, hnext]
  rfl

end BranchInstr

/-- Settles O46: each of the eight is a branch that tests its flag. -/
theorem branchesTestTheirFlag : Obligations.BranchesTestTheirFlag := by
  unfold Obligations.BranchesTestTheirFlag
  intro q hq
  have hbranch : ∃ op, BranchInstr q.1 op q.2.1 q.2.2 := by
    simp only [List.mem_cons, List.not_mem_nil, or_false] at hq
    obtain rfl | rfl | rfl | rfl | rfl | rfl | rfl | rfl := hq
    · exact ⟨.bcc, fun _ => rfl, fun _ => rfl, fun _ => rfl, by decide, by decide +kernel⟩
    · exact ⟨.bcs, fun _ => rfl, fun _ => rfl, fun _ => rfl, by decide, by decide +kernel⟩
    · exact ⟨.beq, fun _ => rfl, fun _ => rfl, fun _ => rfl, by decide, by decide +kernel⟩
    · exact ⟨.bne, fun _ => rfl, fun _ => rfl, fun _ => rfl, by decide, by decide +kernel⟩
    · exact ⟨.bmi, fun _ => rfl, fun _ => rfl, fun _ => rfl, by decide, by decide +kernel⟩
    · exact ⟨.bpl, fun _ => rfl, fun _ => rfl, fun _ => rfl, by decide, by decide +kernel⟩
    · exact ⟨.bvc, fun _ => rfl, fun _ => rfl, fun _ => rfl, by decide, by decide +kernel⟩
    · exact ⟨.bvs, fun _ => rfl, fun _ => rfl, fun _ => rfl, by decide, by decide +kernel⟩
  obtain ⟨op, hbranch⟩ := hbranch
  exact fun disp s => ⟨hbranch.encode_eq disp, hbranch.exec_not_taken disp, hbranch.exec_taken disp⟩

end Sys2Proof.Machine
end

section
/-! The register transfers (49_flags_transfer_misc.md). -/

namespace Sys2Proof.Machine

/-- Settles O55: five write a register with Z and N, as INX does, and TXS writes SP only. -/
theorem transfersCopyARegister : Obligations.TransfersCopyARegister := by
  unfold Obligations.TransfersCopyARegister
  refine ⟨?tax, ?txa, ?tay, ?tya, ?tsx, ?txs⟩
  case tax =>
    exact oneByte_setRegNZ (i := .tax) (by decide) (by decide +kernel) rfl setX_cycles setX_flags
  case txa =>
    exact oneByte_setRegNZ (i := .txa) (by decide) (by decide +kernel) rfl setA_cycles setA_flags
  case tay =>
    exact oneByte_setRegNZ (i := .tay) (by decide) (by decide +kernel) rfl setY_cycles setY_flags
  case tya =>
    exact oneByte_setRegNZ (i := .tya) (by decide) (by decide +kernel) rfl setA_cycles setA_flags
  case tsx =>
    exact oneByte_setRegNZ (i := .tsx) (by decide) (by decide +kernel) rfl setX_cycles setX_flags
  case txs => exact oneByte_plain (i := .txs) (by decide) (by decide +kernel) rfl fun _ => rfl

end Sys2Proof.Machine
end

section
/-! Subroutines, interrupts and the stack (48_jump_stack.md, 60_exceptions.md R234, R235). -/

namespace Sys2Proof.Machine

/-! ### What the stack operations write and read -/

theorem push16_eq (s : State) (w : Addr) :
    push16 s w = { s with sp := s.sp - 2, mem := (push16 s w).mem } := by
  rw [← sub_one_one]
  rfl

theorem enterBreak_eq (s : State) : enterBreak s = { s with
    sp := s.sp - 3, flags := { s.flags with i := true }, mem := (enterBreak s).mem } := by
  have hfields := enterBreak_fields s
  generalize enterBreak s = t at hfields ⊢
  cases t
  simpa using hfields

/-- The first byte pulled is in slot 0 (R53). -/
theorem pulled_eq (s : State) : pulled s = memRead s (pullSlot s 0) := by
  rw [pulled, pullAddr_eq]

theorem pulled_afterPull (s : State) : pulled (afterPull s) = memRead s (pullSlot s 1) := by
  rw [pulled, pullAddr_afterPull, memRead_afterPull]

theorem pulled_afterPull_afterPull (s : State) :
    pulled (afterPull (afterPull s)) = memRead s (pullSlot s 2) := by
  rw [pulled, pullAddr_afterPull_afterPull, memRead_afterPull, memRead_afterPull]

/-- After `n` pushes, made from `s`, the `k`-th byte pulled is the `j`-th pushed, `j` and `k`
counted from the two ends of the `n` bytes (R52, R53). -/
theorem pullSlot_eq_pushSlot {s t : State} {n j k : Nat} (hcfg : t.cfg = s.cfg)
    (hsp : t.sp = s.sp - BitVec.ofNat 8 n) (hn : n = j + 1 + k) : pullSlot t k = pushSlot s j := by
  rw [pullSlot, pushSlot, hcfg, hsp, hn]
  cases s.cfg.stackOrder with
  | decThenWrite =>
    have hsum : s.sp - BitVec.ofNat 8 (j + 1 + k) + BitVec.ofNat 8 k =
        s.sp - BitVec.ofNat 8 (j + 1) := by
      rw [BitVec.ofNat_add (j + 1) k]
      bv_omega
    dsimp only
    rw [hsum]
  | writeThenDec =>
    have hsum : s.sp - BitVec.ofNat 8 (j + 1 + k) + BitVec.ofNat 8 (k + 1) =
        s.sp - BitVec.ofNat 8 j := by
      rw [Nat.add_assoc, Nat.add_comm 1 k, BitVec.ofNat_add j (k + 1)]
      bv_omega
    dsimp only
    rw [hsum]

/-! ### One-byte instructions -/

/-- A one-byte instruction ends as its body reports, its cycles counted (R96, R97). -/
theorem exec_oneByte {i : Instr} {code : Byte} {cycles : Nat} (hi : i.op ≠ .illegal)
    (hf : (oneByte code .implied cycles).IsRowOf i.op) (hoperand : i.operand = .implied)
    {s s' : State} {next : Option Addr}
    (hbody : bodyOf i .none false s = some (s', { nextPc := next })) :
    exec i s = .next { s' with
      pc := next.getD (s.pc + 1), cycles := s'.cycles + cycles } := by
  have hrun : bodyOf i (resolve s i.operand).1 (resolve s i.operand).2 s =
      some (s', { nextPc := next }) := by
    rw [hoperand]
    exact hbody
  rw [exec_of_isRowOf hi hf (congrArg Operand.mode hoperand) hrun, finish_no_halt]
  rfl

/-- A one-byte instruction's bytes are its opcode (R60). -/
theorem encode_oneByte {i : Instr} {code : Byte} {cycles : Nat} (hi : i.op ≠ .illegal)
    (hf : (oneByte code .implied cycles).IsRowOf i.op) (hoperand : i.operand = .implied) :
    encode i = [code] := by
  obtain ⟨hbytes, -⟩ := encodes_of_isRowOf hi hf (congrArg Operand.mode hoperand)
  rw [hbytes, hoperand]
  rfl

/-! ### The table's entries of the instructions that use the stack (R65) -/

theorem isRowOf_rts : (oneByte 0x60#8 .implied 6).IsRowOf .rts := by decide +kernel
theorem isRowOf_rti : (oneByte 0x40#8 .implied 6).IsRowOf .rti := by decide +kernel
theorem isRowOf_pha : (oneByte 0x48#8 .implied 3).IsRowOf .pha := by decide +kernel
theorem isRowOf_php : (oneByte 0x08#8 .implied 3).IsRowOf .php := by decide +kernel
theorem isRowOf_pla : (oneByte 0x68#8 .implied 4).IsRowOf .pla := by decide +kernel
theorem isRowOf_plp : (oneByte 0x28#8 .implied 4).IsRowOf .plp := by decide +kernel
theorem isRowOf_brk : (oneByte 0x00#8 .implied 7).IsRowOf .brk := by decide +kernel

theorem isRowOf_jsr : (⟨0x20#8, .absolute, 3, 6, false⟩ : Form).IsRowOf .jsr := by decide +kernel

/-! ### What each of them does -/

theorem exec_jsr (target : Addr) (s : State) : exec (.jsr target) s = .next { s with
    pc := target, sp := s.sp - 2, cycles := s.cycles + 6, mem := (push16 s (s.pc + 2)).mem } := by
  have hbody : bodyOf (.jsr target) (.addr target) false s =
      some (push16 s (s.pc + 2), { nextPc := some target }) := rfl
  have hrun := exec_of_isRowOf (i := .jsr target) nofun isRowOf_jsr rfl hbody
  rw [hrun, push16_eq]
  rfl

theorem exec_rts (s : State) : exec .rts s = .next { s with
    pc := BitVec.ofNat 16
      (256 * (memRead s (pullSlot s 1)).toNat + (memRead s (pullSlot s 0)).toNat + 1)
    sp := s.sp + 2
    cycles := s.cycles + 6 } := by
  have hbody : bodyOf .rts .none false s = some ({ s with sp := s.sp + 2 },
      { nextPc := some (BitVec.ofNat 16
          (256 * (memRead s (pullSlot s 1)).toNat + (memRead s (pullSlot s 0)).toNat + 1)) }) := by
    dsimp only [bodyOf]
    rw [afterPull16_eq, pulled16, pulled_afterPull, pulled_eq, word_eq_ofNat,
      BitVec.ofNat_add _ 1]
    rfl
  exact exec_oneByte (by decide) isRowOf_rts rfl hbody

theorem exec_rti (s : State) : exec .rti s = .next { s with
    pc := BitVec.ofNat 16
      (256 * (memRead s (pullSlot s 2)).toNat + (memRead s (pullSlot s 1)).toNat)
    sp := s.sp + 3
    flags := Flags.unpack (memRead s (pullSlot s 0))
    cycles := s.cycles + 6 } := by
  have hbody : bodyOf .rti .none false s =
      some ({ s with sp := s.sp + 3, flags := Flags.unpack (memRead s (pullSlot s 0)) },
        { nextPc := some (BitVec.ofNat 16
            (256 * (memRead s (pullSlot s 2)).toNat + (memRead s (pullSlot s 1)).toNat)) }) := by
    dsimp only [bodyOf]
    rw [interruptReturn, pulled16, pulled_afterPull_afterPull, pulled_afterPull,
      leaveInterrupt_eq, pulled_eq, word_eq_ofNat]
  exact exec_oneByte (by decide) isRowOf_rti rfl hbody

theorem exec_pha (s : State) : exec .pha s = .next { s with
    pc := s.pc + 1, sp := s.sp - 1, cycles := s.cycles + 3, mem := (push s s.a).mem } := by
  have hbody : bodyOf .pha .none false s = some (push s s.a, {}) := rfl
  exact exec_oneByte (by decide) isRowOf_pha rfl hbody

theorem exec_php (s : State) : exec .php s = .next { s with
    pc := s.pc + 1, sp := s.sp - 1, cycles := s.cycles + 3, mem := (push s s.flags.pack).mem } := by
  have hbody : bodyOf .php .none false s = some (push s s.flags.pack, {}) := rfl
  exact exec_oneByte (by decide) isRowOf_php rfl hbody

theorem exec_pla (s : State) : exec .pla s = .next { s with
    pc := s.pc + 1, a := memRead s (pullSlot s 0), sp := s.sp + 1,
    flags := flagsNZ s.flags (memRead s (pullSlot s 0)), cycles := s.cycles + 4 } := by
  have hbody : bodyOf .pla .none false s = some ({ s with
      a := memRead s (pullSlot s 0), sp := s.sp + 1,
      flags := flagsNZ s.flags (memRead s (pullSlot s 0)) }, {}) := by
    rw [bodyOf, plain_eq_some, pulled_eq, setNZ_eq_flagsNZ]
    exact ⟨rfl, rfl⟩
  exact exec_oneByte (by decide) isRowOf_pla rfl hbody

theorem exec_plp (s : State) : exec .plp s = .next { s with
    pc := s.pc + 1, sp := s.sp + 1, flags := Flags.unpack (memRead s (pullSlot s 0)),
    cycles := s.cycles + 4 } := by
  have hbody : bodyOf .plp .none false s = some ({ s with
      sp := s.sp + 1, flags := Flags.unpack (memRead s (pullSlot s 0)) }, {}) := by
    rw [bodyOf, plain_eq_some, pulled_eq]
    exact ⟨rfl, rfl⟩
  exact exec_oneByte (by decide) isRowOf_plp rfl hbody

/-- BRK ends as its report says (R214). -/
theorem exec_brk (s : State) : exec .brk s = .next (finish ⟨.brk, 1, 7, .implied, false⟩ false s.pc
    (breakReport s.pc (enterBreak s)) (enterBreak s)) := by
  have hbody : bodyOf .brk .none false s =
      some (enterBreak s, breakReport s.pc (enterBreak s)) := rfl
  exact exec_of_isRowOf (i := .brk) (f := oneByte 0x00#8 .implied 7) (by decide) isRowOf_brk rfl
    hbody

theorem breakReport_enterBreak_of_halt {s : State} (h : s.cfg.brkMode = .halt) :
    breakReport s.pc (enterBreak s) = { halt := some (.brk s.pc) } := by
  rw [enterBreak_eq, breakReport, h]

theorem breakReport_enterBreak_of_vector {s : State} (h : s.cfg.brkMode = .vector) :
    breakReport s.pc (enterBreak s) =
      { nextPc := some (read16 (enterBreak s) s.cfg.brkVector) } := by
  rw [breakReport, enterBreak_eq, h]

theorem exec_brk_of_halt {s : State} (h : s.cfg.brkMode = .halt) : exec .brk s = .next { s with
    pc := s.pc + 1, sp := s.sp - 3, flags := { s.flags with i := true }, halted := true,
    haltReason := some (.brk s.pc), cycles := s.cycles + 7, mem := (enterBreak s).mem } := by
  rw [exec_brk, breakReport_enterBreak_of_halt h, enterBreak_eq]
  rfl

theorem exec_brk_of_vector {s : State} (h : s.cfg.brkMode = .vector) :
    exec .brk s = .next { s with
      pc := BitVec.ofNat 16 (256 * (memRead (enterBreak s) (s.cfg.brkVector + 1)).toNat +
        (memRead (enterBreak s) s.cfg.brkVector).toNat)
      sp := s.sp - 3, flags := { s.flags with i := true }, cycles := s.cycles + 7,
      mem := (enterBreak s).mem } := by
  rw [exec_brk, breakReport_enterBreak_of_vector h, read16, word_eq_ofNat, finish_no_halt,
    enterBreak_eq]
  rfl

/-- Settles O48: JSR's body is `Push16` of PC + 2. -/
theorem jsrPushesTheReturnAddress : Obligations.JsrPushesTheReturnAddress := by
  unfold Obligations.JsrPushesTheReturnAddress
  refine fun target s => ⟨?bytes, _, exec_jsr target s, rfl, fun b => memRead_push16 s (s.pc + 2) b⟩
  exact (encodes_of_isRowOf (i := .jsr target) nofun isRowOf_jsr rfl).1

/-- Settles O49: the pulled bytes are in the slots of the three pulls, and packing the unpacked
flags gives back the pulled byte with bits 5 and 4 set. -/
theorem rtsAndRtiPullThePc : Obligations.RtsAndRtiPullThePc := by
  unfold Obligations.RtsAndRtiPullThePc
  refine ⟨encode_oneByte (by decide) isRowOf_rts rfl,
    encode_oneByte (by decide) isRowOf_rti rfl,
    fun s => ⟨exec_rts s, _, statusByte_unpack _, exec_rti s⟩⟩

/-- Settles O50: both bodies are one `Push`. -/
theorem phaAndPhpPushOneByte : Obligations.PhaAndPhpPushOneByte := by
  unfold Obligations.PhaAndPhpPushOneByte
  refine ⟨encode_oneByte (by decide) isRowOf_pha rfl,
    encode_oneByte (by decide) isRowOf_php rfl,
    fun s => ⟨⟨_, exec_pha s, rfl, fun b => ?pha⟩, _, exec_php s, rfl, fun b => ?php⟩⟩
  case pha =>
    rw [← pushAddr_eq]
    exact memRead_push s s.a b
  case php =>
    rw [← pushAddr_eq, ← pack_eq_statusByte]
    exact memRead_push s s.flags.pack b

/-- Settles O51: both bodies are one `Pull`. -/
theorem plaAndPlpPullOneByte : Obligations.PlaAndPlpPullOneByte := by
  unfold Obligations.PlaAndPlpPullOneByte
  refine ⟨⟨?plaBytes, exec_pla⟩, ?plpBytes, fun s => ⟨_, statusByte_unpack _, exec_plp s⟩⟩
  case plaBytes =>
    exact encode_oneByte (by decide) isRowOf_pla rfl
  case plpBytes =>
    exact encode_oneByte (by decide) isRowOf_plp rfl

/-- Settles O57: BRK's body is the break entry, and its report is the halt or the vector. -/
theorem brkPushesThenHaltsOrVectors : Obligations.BrkPushesThenHaltsOrVectors := by
  unfold Obligations.BrkPushesThenHaltsOrVectors
  refine ⟨encode_oneByte (by decide) isRowOf_brk rfl, fun s => ?_⟩
  cases hmode : s.cfg.brkMode with
  | halt =>
    exact ⟨_, exec_brk_of_halt hmode, memRead_enterBreak s, fun _ => rfl, BrkMode.noConfusion⟩
  | vector =>
    exact ⟨_, exec_brk_of_vector hmode, memRead_enterBreak s, BrkMode.noConfusion, fun _ => rfl⟩

/-! ### A pull after a push -/

/-- Settles O52: RTS pulls the two bytes that JSR pushed. -/
theorem rtsReturnsFromJsr : Obligations.RtsReturnsFromJsr := by
  unfold Obligations.RtsReturnsFromJsr
  intro target s
  obtain ⟨-, t, hjsr, ht, hmem⟩ := jsrPushesTheReturnAddress target s
  have hcfg : t.cfg = s.cfg := by rw [ht]
  have hsp : t.sp = s.sp - BitVec.ofNat 8 2 := congrArg State.sp ht
  have hlow : memRead t (pullSlot t 0) = lowByte (s.pc + 2) := by
    rw [pullSlot_eq_pushSlot (j := 1) hcfg hsp rfl, hmem, if_neg (pushSlot_ne s).1.symm, if_pos rfl]
  have hhigh : memRead t (pullSlot t 1) = highByte (s.pc + 2) := by
    rw [pullSlot_eq_pushSlot (j := 0) hcfg hsp rfl, hmem, if_pos rfl]
  have hpc : BitVec.ofNat 16 (256 * (highByte (s.pc + 2)).toNat + (lowByte (s.pc + 2)).toNat + 1) =
      s.pc + 3 := by
    rw [BitVec.ofNat_add _ 1, ← word_eq_ofNat, word_high_low]
    bv_omega
  have hsp' : s.sp - 2 + 2 = s.sp := by bv_omega
  refine ⟨t, _, hjsr, exec_rts t, ?_, fun b h0 h1 => ?_⟩
  · rw [hlow, hhigh, hpc, ht, hsp']
  · exact (hmem b).trans (by rw [if_neg h0, if_neg h1])

/-- Unpacking a pushed status byte gives back the flags (R27, R28). -/
theorem unpack_statusByte (p : Flags) : Flags.unpack (statusByte p) = p := by
  rw [← pack_eq_statusByte, Flags.unpack_pack]

/-- Settles O53: the pull reads the slot that the push wrote, and unpacking undoes packing. -/
theorem pullsUndoPushes : Obligations.PullsUndoPushes := by
  unfold Obligations.PullsUndoPushes
  intro s p v
  obtain ⟨-, -, hpush⟩ := phaAndPhpPushOneByte
  obtain ⟨⟨ta, hpha, hta, hamem⟩, tp, hphp, htp, hpmem⟩ := hpush s
  have hsp : s.sp - 1 + 1 = s.sp := by bv_omega
  have hstatus : memRead tp (pullSlot { tp with flags := p } 0) = statusByte s.flags := by
    rw [pullSlot_eq_pushSlot (s := s) (t := { tp with flags := p }) (n := 1) (j := 0)
      (congrArg State.cfg htp :) (congrArg State.sp htp :) rfl, hpmem, if_pos rfl]
  have hacc : memRead ta (pullSlot { ta with a := v } 0) = s.a := by
    rw [pullSlot_eq_pushSlot (s := s) (t := { ta with a := v }) (n := 1) (j := 0)
      (congrArg State.cfg hta :) (congrArg State.sp hta :) rfl, hamem, if_pos rfl]
  refine ⟨⟨tp, _, hphp, exec_plp { tp with flags := p }, ?flags, ?phpSp⟩,
    ta, _, hpha, exec_pla { ta with a := v }, hacc, ?phaSp, ?accFlags⟩
  case flags => exact (congrArg Flags.unpack hstatus).trans (unpack_statusByte s.flags)
  case phpSp => exact (congrArg (·.sp + 1) htp).trans hsp
  case phaSp => exact (congrArg (·.sp + 1) hta).trans hsp
  case accFlags => exact congrArg₂ flagsNZ (congrArg State.flags hta :) hacc

/-- Settles O58: RTI pulls the three bytes that BRK pushed. -/
theorem rtiReturnsFromBrk : Obligations.RtiReturnsFromBrk := by
  unfold Obligations.RtiReturnsFromBrk
  intro s hmode
  obtain ⟨-, hbrk⟩ := brkPushesThenHaltsOrVectors
  obtain ⟨t, hexec, hmem, -, hvector⟩ := hbrk s
  have ht := hvector hmode
  have hcfg : t.cfg = s.cfg := by rw [ht]
  have hsp : t.sp = s.sp - BitVec.ofNat 8 3 := congrArg State.sp ht
  obtain ⟨h01, h02, h12⟩ := pushSlot_ne s
  have hstatus : memRead t (pullSlot t 0) = statusByte s.flags := by
    rw [pullSlot_eq_pushSlot (j := 2) hcfg hsp rfl, hmem, if_neg h02.symm, if_neg h12.symm,
      if_pos rfl]
  have hlow : memRead t (pullSlot t 1) = lowByte (s.pc + 2) := by
    rw [pullSlot_eq_pushSlot (j := 1) hcfg hsp rfl, hmem, if_neg h01.symm, if_pos rfl]
  have hhigh : memRead t (pullSlot t 2) = highByte (s.pc + 2) := by
    rw [pullSlot_eq_pushSlot (j := 0) hcfg hsp rfl, hmem, if_pos rfl]
  have hsp' : s.sp - 3 + 3 = s.sp := by bv_omega
  refine ⟨t, _, hexec, exec_rti t, ?_, fun b h0 h1 h2 => ?_⟩
  · rw [hstatus, hlow, hhigh, ← word_eq_ofNat, word_high_low, unpack_statusByte, ht, hsp']
  · exact (hmem b).trans (by rw [if_neg h0, if_neg h1, if_neg h2])

end Sys2Proof.Machine
end
